-- ==== Sys2Proof/Word.lean ====
section
/-! DEFINITION. The two word types of WYF4-CORE: every register value is an unsigned 64-bit word, every
message and buffer place is one byte (spec/00_scope.md R7, R8). -/

namespace Sys2Proof

/-- `u64`: the width of every host-visible register and of every value the datapath mixes (R7, R8). -/
abbrev Word := BitVec 64

/-- One byte of the message memory or of the 48-byte buffer (R60). -/
abbrev Byte := BitVec 8

end Sys2Proof
end

