-- ==== Sys2Proof/Syntax.lean ====
section
/-! DEFINITION. The whole syntax: the ten commands of spec/opcode_table.json with their variant field, the names of
the host-visible registers, the accesses a host can make at the engine's port, and the lines of a host's program. -/

namespace Sys2Proof

/-- The four mixing variants, the values 0 to 3 of the field `v` in this order (R2, R96).
"No other variant exists", so no value of the field is reserved. -/
inductive Variant where
  | w64    -- 0: "the 64-bit variant"
  | w64c   -- 1: "the 64-bit condom variant"
  | w32    -- 2: "the 32-bit variant"
  | w32c   -- 3: "the 32-bit condom variant"
  deriving DecidableEq, Repr

/-- One constructor per row of the opcode table (R95). A command carries no operand but the variant (R98). -/
inductive Instr where
  | mum (v : Variant)      -- MUM.v    (R127)
  | mix (v : Variant)      -- MIX.v    (R128)
  | initD (v : Variant)    -- INIT.D.v (R143)
  | initS (v : Variant)    -- INIT.S.v (R144)
  | initG (v : Variant)    -- INIT.G.v (R145)
  | hash                   -- HASH     (R150)
  | sopen                  -- SOPEN    (R181)
  | write                  -- WRITE    (R182)
  | finish                 -- FINISH   (R188)
  | gensec (v : Variant)   -- GENSEC.v (R210)
  deriving DecidableEq, Repr

/-- The host-visible registers of the map in spec/10_state.md R26. -/
inductive HostReg where
  | cmd | status | errInfo | seedIn
  | secIn0 | secIn1 | secIn2 | secIn3
  | ptr | len | opA | opB | res0 | res1 | digest
  | gsec0 | gsec1 | gsec2 | gsec3
  deriving DecidableEq, Repr

/-- One access of the host at the engine's port. Registers are named by number, since every number may be
accessed (R26, R46); the message memory has a path of its own (R62). An address is a natural number, so that one past
the 64 bits addresses are carried in (R60) is what it is: an address outside the memory (log entry 15). -/
inductive HostAccess where
  /-- `RegRead(num)`. -/
  | regRead (num : Nat)
  /-- `RegWrite(num, v)`; with `num = 0` it offers the command word `v` to the engine (R27). -/
  | regWrite (num : Nat) (v : Word)
  /-- `MemRead(addr, n)`: the `n` bytes from `addr` up, little-endian (R11, R62, R64). -/
  | memRead (addr : Nat) (n : Nat)
  /-- `MemWrite(addr, n, v)`: the `n` low bytes of `v`, little-endian, to `addr` upward (R62). -/
  | memWrite (addr : Nat) (n : Nat) (v : Word)
  deriving DecidableEq, Repr

/-- What the outside world does in one step of the model (log entry 5). -/
inductive HostEvent where
  /-- An access reaches the port. -/
  | access (a : HostAccess)
  /-- A `RegRead(STATUS)` that reaches the port while the command accepted last is still executing (log entry 6). -/
  | statusDuring
  /-- Nothing reaches the port: the engine moves. -/
  | quiet
  /-- The reset input (R260): "It may occur at any time, also while a command is running." -/
  | reset
  deriving DecidableEq, Repr

/-- `<value>` of a directive: "a decimal or `0x` hexadecimal 64-bit number or a name bound by an earlier `RD`" (R103). -/
inductive Value where
  | num (x : Word)
  | name (n : String)
  deriving DecidableEq, Repr

/-- One line of a program for the engine (R103), each standing for one host access. A `MEM` line stands for several:
one `place` for each of its bytes. -/
inductive Directive where
  /-- A command line: `RegWrite(CMD, word)`. -/
  | command (i : Instr)
  /-- `WR <reg>, <value>`. -/
  | wr (r : HostReg) (x : Value)
  /-- `RD <reg>`, or `RD <reg> -> <name>`. -/
  | rd (r : HostReg) (bind : Option String)
  /-- One byte of `MEM <addr>: <bytes>`. -/
  | place (addr : Nat) (b : Byte)
  deriving DecidableEq, Repr

end Sys2Proof
end

