-- ==== Sys2Proof/Machine/Arith.lean ====
section
/-! DEFINITION. The multiply-mix primitive in its four variants (spec/40_mulmix.md) and the word operators it and the
secret generator use (spec/00_scope.md R9). All arithmetic is exact and unsigned, then narrowed. -/

namespace Sys2Proof.Machine

/-- `rot32(x)`: the word with its two 32-bit halves swapped (R9, C5). -/
def rot32 (x : Word) : Word := (x <<< 32) ||| (x >>> 32)

/-- `hi32(x) = x[63:32]` (R9). -/
def hi32 (x : Word) : BitVec 32 := x.extractLsb' 32 32

/-- `lo32(x) = x[31:0]` (R9). -/
def lo32 (x : Word) : BitVec 32 := x.extractLsb' 0 32

/-- `popcount(x)`: the number of one-bits (R9). -/
def popcount (x : Word) : Nat := (List.range 64).countP fun i => x.getLsbD i

/-- The exact 32×32 to 64-bit product (R123, R126). -/
def mul32 (x y : BitVec 32) : Word := BitVec.ofNat 64 (x.toNat * y.toNat)

/-- `mum_W64(a, b)`: the low and the high half of the exact 128-bit product (R121). -/
def mumW64 (a b : Word) : Word × Word :=
  (BitVec.ofNat 64 (a.toNat * b.toNat), BitVec.ofNat 64 (a.toNat * b.toNat / 2 ^ 64))

/-- `mum_W32(a, b) = (rot32(hl) ^ hh, rot32(lh) ^ ll)`, the first letter naming the half of `a` and the second the
half of `b` (R123, D13). -/
def mumW32 (a b : Word) : Word × Word :=
  (rot32 (mul32 (hi32 a) (lo32 b)) ^^^ mul32 (hi32 a) (hi32 b),
   rot32 (mul32 (lo32 a) (hi32 b)) ^^^ mul32 (lo32 a) (lo32 b))

/-- The condom variants' feedback: the pair exclusive-ored with the operands (R122, R124). -/
def feedBack (a b : Word) (p : Word × Word) : Word × Word := (a ^^^ p.1, b ^^^ p.2)

/-- `mum_v(a, b)` (R120 to R124). -/
def mum (v : Variant) (a b : Word) : Word × Word :=
  match v with
  | .w64 => mumW64 a b
  | .w64c => feedBack a b (mumW64 a b)
  | .w32 => mumW32 a b
  | .w32c => feedBack a b (mumW32 a b)

/-- `mix_v(a, b)`: the two elements of the pair, exclusive-ored (R125). -/
def mix (v : Variant) (a b : Word) : Word := (mum v a b).1 ^^^ (mum v a b).2

end Sys2Proof.Machine
end

