-- ==== Sys2Proof/Decode.lean ====
section
/-! DEFINITION. The command word (spec/30_encoding.md): the total decoder of R99 with a name for every rejection, the
encoder of R91 to R95, the opcode map as a list of match and mask rows, the register numbers of R26 and the
mnemonics of R102. -/

namespace Sys2Proof

/-- The number of a variant in the field `v` (R96, D4). -/
def Variant.bits : Variant → BitVec 2
  | .w64 => 0
  | .w64c => 1
  | .w32 => 2
  | .w32c => 3

/-- The variant the field `v` names; all four values are legal (R96). -/
def Variant.ofBits (b : BitVec 2) : Variant :=
  match b.toNat with
  | 0 => .w64
  | 1 => .w64c
  | 2 => .w32
  | _ => .w32c

/-- Why a value written to CMD is no command (R99, R100). Each of them makes the engine fault with ILLEGAL_CMD. -/
inductive DecodeError where
  | highWord       -- a bit of 63:32 is set (R99 line 1)
  | zeroField      -- a bit of 31:12 is set (R99 line 2)
  | secretSource   -- `ssel = 3` with INIT, or a nonzero `ssel` with any other command (lines 4 to 11)
  | variantField   -- a nonzero `v` with a Format N command (lines 7 to 10)
  | opcode         -- no command has this opcode (line 12)
  deriving DecidableEq, Repr

/-- What the decoder answers: "a word is one of the 28 of rule R95 or it is illegal" (R99). -/
inductive Decoded where
  | command (i : Instr)
  | illegal (e : DecodeError)
  deriving DecidableEq, Repr

/-- A Format V command (R93): the secret-source bits must be zero. -/
def decodeFormatV (ssel : BitVec 2) (i : Instr) : Decoded :=
  if ssel = 0 then .command i else .illegal .secretSource

/-- A Format N command (R92): the variant and the secret-source bits must be zero. -/
def decodeFormatN (v ssel : BitVec 2) (i : Instr) : Decoded :=
  if ssel ≠ 0 then .illegal .secretSource
  else if v ≠ 0 then .illegal .variantField
  else .command i

/-- The INIT commands (R94, R97): `ssel` selects the secret source, 3 is reserved. -/
def decodeInit (v ssel : BitVec 2) : Decoded :=
  match ssel.toNat with
  | 0 => .command (.initD (Variant.ofBits v))
  | 1 => .command (.initS (Variant.ofBits v))
  | 2 => .command (.initG (Variant.ofBits v))
  | _ => .illegal .secretSource

/-- R99: the decoder, total on every 64-bit value written to CMD, its checks in the rule's order. -/
def decode (w : Word) : Decoded :=
  if w.extractLsb' 32 32 ≠ 0 then .illegal .highWord
  else if w.extractLsb' 12 20 ≠ 0 then .illegal .zeroField
  else
    let v := w.extractLsb' 8 2
    let ssel := w.extractLsb' 10 2
    match (w.extractLsb' 0 8).toNat with
    | 0x01 => decodeFormatV ssel (.mum (Variant.ofBits v))
    | 0x02 => decodeFormatV ssel (.mix (Variant.ofBits v))
    | 0x10 => decodeInit v ssel
    | 0x11 => decodeFormatN v ssel .hash
    | 0x20 => decodeFormatN v ssel .sopen
    | 0x21 => decodeFormatN v ssel .write
    | 0x22 => decodeFormatN v ssel .finish
    | 0x30 => decodeFormatV ssel (.gensec (Variant.ofBits v))
    | _ => .illegal .opcode

/-- The 32-bit word with fields `zero = 0`, `ssel`, `v`, `op` at bits 31:12, 11:10, 9:8, 7:0 (R91). -/
def packWord (ssel v : BitVec 2) (op : BitVec 8) : BitVec 32 :=
  (0 : BitVec 20) ++ ssel ++ v ++ op

/-- The command word of an instruction (R92 to R95). -/
def encode : Instr → BitVec 32
  | .mum v => packWord 0 v.bits 0x01
  | .mix v => packWord 0 v.bits 0x02
  | .initD v => packWord 0 v.bits 0x10
  | .initS v => packWord 1 v.bits 0x10
  | .initG v => packWord 2 v.bits 0x10
  | .hash => packWord 0 0 0x11
  | .sopen => packWord 0 0 0x20
  | .write => packWord 0 0 0x21
  | .finish => packWord 0 0 0x22
  | .gensec v => packWord 0 v.bits 0x30

/-- The 64-bit value a host writes to CMD to start a command: the word in the low half, zero above (R90).
The decoder maps no other value to the command, so this is also the value a fault records in ERRINFO (R231). -/
def cmdValue (i : Instr) : Word := (encode i).setWidth 64

/-- One row of the opcode map of R95. -/
structure OpcodeRow where
  mnemonic  : String
  matchBits : BitVec 32
  mask      : BitVec 32
  deriving DecidableEq, Repr

/-- "a word `w` selects the row when `w & mask == match` (and `w[63:32] == 0`)" (R95). -/
def OpcodeRow.selects (r : OpcodeRow) (w : Word) : Bool :=
  (w.extractLsb' 32 32 == 0) && (w.setWidth 32 &&& r.mask == r.matchBits)

/-- The opcode map of R95, row by row. -/
def opcodeRows : List OpcodeRow :=
  [ ⟨"MUM.v", 0x00000001, 0xFFFFFCFF⟩,
    ⟨"MIX.v", 0x00000002, 0xFFFFFCFF⟩,
    ⟨"INIT.D.v", 0x00000010, 0xFFFFFCFF⟩,
    ⟨"INIT.S.v", 0x00000410, 0xFFFFFCFF⟩,
    ⟨"INIT.G.v", 0x00000810, 0xFFFFFCFF⟩,
    ⟨"HASH", 0x00000011, 0xFFFFFFFF⟩,
    ⟨"SOPEN", 0x00000020, 0xFFFFFFFF⟩,
    ⟨"WRITE", 0x00000021, 0xFFFFFFFF⟩,
    ⟨"FINISH", 0x00000022, 0xFFFFFFFF⟩,
    ⟨"GENSEC.v", 0x00000030, 0xFFFFFCFF⟩ ]

/-- The row of the opcode map an instruction belongs to, by its mnemonic. -/
def Instr.row : Instr → String
  | .mum _ => "MUM.v"
  | .mix _ => "MIX.v"
  | .initD _ => "INIT.D.v"
  | .initS _ => "INIT.S.v"
  | .initG _ => "INIT.G.v"
  | .hash => "HASH"
  | .sopen => "SOPEN"
  | .write => "WRITE"
  | .finish => "FINISH"
  | .gensec _ => "GENSEC.v"

/-- The 28 legal command words, in the order R95 lists them. -/
def legalWords : List (BitVec 32) :=
  [ 0x001, 0x101, 0x201, 0x301, 0x002, 0x102, 0x202, 0x302, 0x010, 0x110, 0x210, 0x310,
    0x410, 0x510, 0x610, 0x710, 0x810, 0x910, 0xA10, 0xB10, 0x011, 0x020, 0x021, 0x022,
    0x030, 0x130, 0x230, 0x330 ]

/-- The suffix of a variant in the textual form of a command (R102). -/
def Variant.suffix : Variant → String
  | .w64 => "W64"
  | .w64c => "W64C"
  | .w32 => "W32"
  | .w32c => "W32C"

/-- The textual form of a command (R102, D27). -/
def Instr.text : Instr → String
  | .mum v => "MUM." ++ v.suffix
  | .mix v => "MIX." ++ v.suffix
  | .initD v => "INIT.D." ++ v.suffix
  | .initS v => "INIT.S." ++ v.suffix
  | .initG v => "INIT.G." ++ v.suffix
  | .hash => "HASH"
  | .sopen => "SOPEN"
  | .write => "WRITE"
  | .finish => "FINISH"
  | .gensec v => "GENSEC." ++ v.suffix

/-- The register of a register number; `none` for the reserved numbers 0x0F and 0x14 upward (R26, R46). -/
def HostReg.ofNum (n : Nat) : Option HostReg :=
  match n with
  | 0x00 => some .cmd
  | 0x01 => some .status
  | 0x02 => some .errInfo
  | 0x03 => some .seedIn
  | 0x04 => some .secIn0
  | 0x05 => some .secIn1
  | 0x06 => some .secIn2
  | 0x07 => some .secIn3
  | 0x08 => some .ptr
  | 0x09 => some .len
  | 0x0A => some .opA
  | 0x0B => some .opB
  | 0x0C => some .res0
  | 0x0D => some .res1
  | 0x0E => some .digest
  | 0x10 => some .gsec0
  | 0x11 => some .gsec1
  | 0x12 => some .gsec2
  | 0x13 => some .gsec3
  | _ => none

/-- The number of a register in the map of R26. -/
def HostReg.num : HostReg → Nat
  | .cmd => 0x00
  | .status => 0x01
  | .errInfo => 0x02
  | .seedIn => 0x03
  | .secIn0 => 0x04
  | .secIn1 => 0x05
  | .secIn2 => 0x06
  | .secIn3 => 0x07
  | .ptr => 0x08
  | .len => 0x09
  | .opA => 0x0A
  | .opB => 0x0B
  | .res0 => 0x0C
  | .res1 => 0x0D
  | .digest => 0x0E
  | .gsec0 => 0x10
  | .gsec1 => 0x11
  | .gsec2 => 0x12
  | .gsec3 => 0x13

/-- The value written to CMD when the bits of the instruction, numbered as spec/opcode_table.json numbers them, are
`w`: bit 0 is bit 0 of the command word, and every bit from `nbits` up is 0 (log entry 13). -/
def tableValue (nbits w : Nat) : Word := BitVec.ofNat 64 (w % 2 ^ nbits)

/-- The instruction the decoder reads from a row's bits (log entry 13). -/
def decodeTableWord (nbits w : Nat) : Option Instr :=
  match decode (tableValue nbits w) with
  | .command i => some i
  | .illegal _ => none

end Sys2Proof
end

