-- ==== Sys2Proof/Config.lean ====
section
/-! DEFINITION. What may differ between two engines: the OPEN parameters of spec/00_scope.md R7. The model takes
them as an argument: they are a field of `State` which no step changes, so a statement about every state is a
statement about every choice of them. -/

namespace Sys2Proof

/-- The OPEN parameters (R7): the size of the message memory (R60, D6) and the secret generator's three
constants (R213, D14). -/
structure Params where
  /-- `MSG_BYTES`: the size of the message memory in bytes, `0 <= MSG_BYTES <= 2^64`. -/
  msgBytes : Nat
  /-- `GEN_INC`: "a fixed odd increment constant". -/
  genInc   : Word
  /-- `GEN_XOR`: the constant the counter is exclusive-ored with before the mix. -/
  genXor   : Word
  /-- `GEN_TABLE[0..69]`: "a fixed 70-entry lookup table of known-good byte values". -/
  genTable : Vector Byte 70
  deriving DecidableEq, Repr

end Sys2Proof
end

