-- ==== Sys2Proof/Machine/Memory.lean ====
section
/-! DEFINITION. The message memory MSG (spec/20_memory.md R60 to R64): one byte per address, held as the list of the bytes
that differ from what an unlisted address reads as, addresses strictly rising. -/

namespace Sys2Proof.Machine

/-- The message memory: (address, byte) pairs in the canonical form `Memory.wf`. -/
abbrev Memory := List Host.Cell

/-- What a byte no host access has written reads as. The spec gives MSG no content after power-on ("its content is the
host's", R42), so this is the model's choice (log entry 4). -/
def Memory.unlisted : Byte := 0

/-- The canonical form: addresses strictly rise, and no entry equals what an unlisted address reads as. -/
abbrev Memory.wf (m : Memory) : Prop :=
  m.Pairwise (fun x y => x.1 < y.1) ∧ ∀ c ∈ m, c.2 ≠ Memory.unlisted

/-- Every listed address lies below `size`: the memory is `[0, size)` and nothing else (R60). -/
abbrev Memory.within (m : Memory) (size : Nat) : Prop := ∀ c ∈ m, c.1 < size

/-- The byte at an address. -/
def Memory.read : Memory → Nat → Byte
  | [], _ => Memory.unlisted
  | (a, b) :: m, x => if x = a then b else Memory.read m x

/-- Store one byte, keeping the canonical form: writing `Memory.unlisted` removes the entry. -/
def Memory.write : Memory → Nat → Byte → Memory
  | [], x, v => if v = Memory.unlisted then [] else [(x, v)]
  | (a, b) :: m, x, v =>
    if x < a then (if v = Memory.unlisted then (a, b) :: m else (x, v) :: (a, b) :: m)
    else if x = a then (if v = Memory.unlisted then m else (x, v) :: m)
    else (a, b) :: Memory.write m x v

/-- Store bytes upward from an address. -/
def Memory.writeBytes : Memory → Nat → List Byte → Memory
  | m, _, [] => m
  | m, a, b :: bs => Memory.writeBytes (Memory.write m a b) (a + 1) bs

/-- The `n` bytes from an address upward: `MSG[a]`, `MSG[a+1]`, ... (R61). -/
def Memory.readBytes (m : Memory) (a n : Nat) : List Byte :=
  (List.range n).map fun i => m.read (a + i)

/-- Little-endian value of a byte sequence: the sum of `bs[i] * 2^(8i)` (R11, R64). -/
def leNat (bs : List Byte) : Nat :=
  bs.foldr (fun b acc => b.toNat + 256 * acc) 0

/-- The `n` low bytes of a word, least significant first (R62). -/
def leBytes (n : Nat) (v : Word) : List Byte :=
  (List.range n).map fun i => v.extractLsb' (8 * i) 8

/-- `MemRead(addr, n)` for a host access of at most 8 bytes, zero-extended to the port's 64 bits (R11, R62, R64). -/
def Memory.readLE (m : Memory) (a n : Nat) : Word := BitVec.ofNat 64 (leNat (m.readBytes a n))

/-- `MemWrite(addr, n, v)`: the `n` low bytes of `v`, little-endian (R62). -/
def Memory.writeLE (m : Memory) (a n : Nat) (v : Word) : Memory := m.writeBytes a (leBytes n v)

end Sys2Proof.Machine
end

