-- ==== Sys2Proof/Machine/Params.lean ====
section
/-! DEFINITION. The parameter values the model's reset state carries (log entries 2 and 3). A statement about every state
does not depend on them. -/

namespace Sys2Proof.Machine

/-- The recommended `GEN_TABLE` (spec/44_secretgen.md R213): the 70 byte values with exactly four one-bits, ascending. -/
def recommendedTable : Vector Byte 70 :=
  #v[0x0f, 0x17, 0x1b, 0x1d, 0x1e, 0x27, 0x2b, 0x2d, 0x2e, 0x33, 0x35, 0x36, 0x39, 0x3a, 0x3c, 0x47, 0x4b, 0x4d,
     0x4e, 0x53, 0x55, 0x56, 0x59, 0x5a, 0x5c, 0x63, 0x65, 0x66, 0x69, 0x6a, 0x6c, 0x71, 0x72, 0x74, 0x78, 0x87,
     0x8b, 0x8d, 0x8e, 0x93, 0x95, 0x96, 0x99, 0x9a, 0x9c, 0xa3, 0xa5, 0xa6, 0xa9, 0xaa, 0xac, 0xb1, 0xb2, 0xb4,
     0xb8, 0xc3, 0xc5, 0xc6, 0xc9, 0xca, 0xcc, 0xd1, 0xd2, 0xd4, 0xd8, 0xe1, 0xe2, 0xe4, 0xe8, 0xf0]

/-- The recommended generator constants (R213), and the largest message memory the spec allows (log entry 2). -/
def recommendedParams : Params where
  msgBytes := 2 ^ 64
  genInc := 0xa0761d6478bd642f
  genXor := 0xe7037ed1a0b428db
  genTable := recommendedTable

end Sys2Proof.Machine
end

