-- ==== Sys2Proof/Machine/State.lean ====
section
/-! DEFINITION. The state of the machine: every register, flag and memory of spec/10_state.md and spec/20_memory.md, the
parameters of R7, and the port's own bookkeeping (what the host does next, which accesses are held, what reads have
answered). Plain data. -/

namespace Sys2Proof.Machine

/-- A secret: "4 unsigned 64-bit integers, treated as an opaque array" (R22). -/
structure Secret where
  w0 : Word
  w1 : Word
  w2 : Word
  w3 : Word
  deriving DecidableEq, Repr

/-- The engine context (R21 to R23): the source's Engine "(secret, working seed)" and its variant. -/
structure EngineCtx where
  /-- `VAR` (R21). -/
  var  : Variant
  /-- `K0` to `K3` (R22). -/
  k    : Secret
  /-- `SEED`, the working seed (R23). -/
  seed : Word
  deriving DecidableEq, Repr

/-- The three running lane seeds `S0`, `S1`, `S2` (R30). -/
structure Lanes where
  s0 : Word
  s1 : Word
  s2 : Word
  deriving DecidableEq, Repr

/-- The stream context (R30 to R33). -/
structure StreamCtx where
  /-- `S0`, `S1`, `S2` (R30). -/
  lanes : Lanes
  /-- `BUF`, the 48-byte buffer (R31). -/
  buf   : Vector Byte 48
  /-- `OFF`, 6 bits (R32). That it never exceeds 48 is an invariant. -/
  off   : BitVec 6
  /-- `TLEN`, the total-length counter (R33). -/
  tlen  : Word
  deriving DecidableEq, Repr

/-- The field `ERR`, the code of the first fault (R231). Codes 7 to 15 are never produced. -/
inductive ErrCode where
  | noError      -- 0: no fault since reset
  | illegalCmd   -- 1: ILLEGAL_CMD
  | noEngine     -- 2: NO_ENGINE
  | noStream     -- 3: NO_STREAM
  | noGsec       -- 4: NO_GSEC
  | bounds       -- 5: BOUNDS
  | lenOverflow  -- 6: LEN_OVERFLOW
  deriving DecidableEq, Repr

/-- The six flags of R25. -/
structure Flags where
  busy   : Bool
  initd  : Bool
  svalid : Bool
  gvalid : Bool
  fault  : Bool
  err    : ErrCode
  deriving DecidableEq, Repr

/-- The operand registers the host writes and no command changes (R34 to R37). -/
structure Operands where
  /-- `SEED_IN` (R34). -/
  seedIn : Word
  /-- `SEC_IN0` to `SEC_IN3` (R35). -/
  secIn  : Secret
  /-- `PTR` (R36). -/
  ptr    : Word
  /-- `LEN` (R36). -/
  len    : Word
  /-- `OPA` (R37). -/
  opA    : Word
  /-- `OPB` (R37). -/
  opB    : Word
  deriving DecidableEq, Repr

/-- The result registers the engine writes and the host reads (R29, R39, R40, R45). -/
structure Results where
  /-- `RES0` (R39). -/
  res0    : Word
  /-- `RES1` (R39). -/
  res1    : Word
  /-- `DIGEST` (R40). -/
  digest  : Word
  /-- `GSEC0` to `GSEC3` (R45). -/
  gsec    : Secret
  /-- `ERRINFO` (R29). -/
  errInfo : Word
  deriving DecidableEq, Repr

/-- The phases of the secret generator's state machine (R38, R216). -/
inductive GenPhase where
  | idle | draw | odd | ham | accept | done
  deriving DecidableEq, Repr

/-- The secret generator's registers (R38), and the variant a GENSEC command holds while it runs (R216). -/
structure Sequencer where
  /-- `G`, the counter. -/
  g    : Word
  /-- `CAND`, the candidate word being assembled. -/
  cand : Word
  /-- `GI`, 3 bits: how many words are accepted. -/
  gi   : BitVec 3
  /-- `GJ`, 4 bits: how many bytes of CAND are drawn. -/
  gj   : BitVec 4
  /-- `GK`, 2 bits: which accepted word CAND is being compared with. -/
  gk   : BitVec 2
  /-- `GPH`, the phase. -/
  gph  : GenPhase
  /-- The variant of the running GENSEC: "The variant `v` of the command is held for the command's duration; it is not
  VAR" (R216). -/
  gvar : Variant
  deriving DecidableEq, Repr

/-- The host port, the model's own bookkeeping (log entries 5, 6, 8 and 12). -/
structure Port where
  /-- What the outside world does next, one event a step. -/
  events  : List HostEvent
  /-- The accesses that arrived while BUSY = 1 and are held, oldest first (R75). -/
  held    : List HostAccess
  /-- The values completed reads have answered, the latest first. -/
  replies : List Word
  /-- What a STATUS read returns while the command accepted last executes: BUSY = 1 and the other fields as they were
  before it started (R28); `none` once the host has seen that command end. -/
  during  : Option Word
  deriving DecidableEq, Repr

/-- The whole machine. -/
structure State where
  ctx    : EngineCtx
  stream : StreamCtx
  flags  : Flags
  ops    : Operands
  res    : Results
  seq    : Sequencer
  /-- The message memory MSG (R60). -/
  msg    : Memory
  /-- The OPEN parameters (R7); no step changes them. -/
  params : Params
  port   : Port
  deriving DecidableEq, Repr

/-- Why the model stops with a fault. (The engine's own faults are no stops: they are the sticky state of R236.) -/
inductive Fault where
  /-- Raised by a host access to the message memory that leaves `[0, MSG_BYTES)`: it "is the platform's matter and is
  given no meaning here" (R62). Raised by no command. Safe: the model stops where a platform might go on. -/
  | hostMemOutside
  deriving DecidableEq, Repr

/-- Why the model refuses a step. -/
inductive Refusal where
  /-- An instruction without a meaning. Raised by no arm of `exec`. Safe. -/
  | notModelled (mnemonic : String)
  /-- A host access to the message memory of no bytes or of more than 8: no form of `MemRead` or `MemWrite` the spec
  defines ("with `1 <= n <= 8`", R62). Raised by no command. Safe. -/
  | hostMemWidth
  /-- A line of a host's program that uses a name no earlier `RD` has bound: no `<value>` of the syntax ("a name bound by
  an earlier `RD`", spec/30_encoding.md R103). Raised by no command and by no step of the machine, only by the host that
  runs the program (Machine/Program.lean). Safe. -/
  | unboundName
  deriving DecidableEq, Repr

/-- The all-zero secret, the value of every secret bank after reset (R42; for K see log entry 1). -/
def Secret.zero : Secret := ⟨0, 0, 0, 0⟩

/-- After reset (R42, R260). The flags, the host-visible registers and GPH are as the rules state. VAR, K, SEED, the
stream context, G, CAND, GI, GJ, GK and the held variant are "unspecified" there: their zeros are the model's choice
(log entry 1). The parameters are those of log entries 2 and 3; the message memory lists nothing (log entry 4); the
port has nothing pending (log entry 5). -/
def State.reset : State where
  ctx := { var := .w64, k := Secret.zero, seed := 0 }
  stream := { lanes := ⟨0, 0, 0⟩, buf := Vector.replicate 48 0, off := 0, tlen := 0 }
  flags := { busy := false, initd := false, svalid := false, gvalid := false, fault := false, err := .noError }
  ops := { seedIn := 0, secIn := Secret.zero, ptr := 0, len := 0, opA := 0, opB := 0 }
  res := { res0 := 0, res1 := 0, digest := 0, gsec := Secret.zero, errInfo := 0 }
  seq := { g := 0, cand := 0, gi := 0, gj := 0, gk := 0, gph := .idle, gvar := .w64 }
  msg := []
  params := recommendedParams
  port := { events := [], held := [], replies := [], during := none }

end Sys2Proof.Machine
end

