-- ==== Sys2Proof/Machine/Flags.lean ====
section
/-! DEFINITION. The STATUS word and its fields (spec/10_state.md R25, R28, R43). There are no arithmetic condition codes:
no command sets one and no command reads one (R25). -/

namespace Sys2Proof.Machine

/-- The value of the field ERR (R231). -/
def ErrCode.bits : ErrCode → BitVec 4
  | .noError => 0
  | .illegalCmd => 1
  | .noEngine => 2
  | .noStream => 3
  | .noGsec => 4
  | .bounds => 5
  | .lenOverflow => 6

/-- The field SPH: 0 no stream, 1 Empty, 2 Accumulating; "3 never occurs" (R28, R43). -/
def streamPhase (s : State) : BitVec 2 :=
  if s.flags.svalid then (if s.stream.tlen = 0 then 1 else 2) else 0

/-- The field STATUS.VAR: "0 when INITD = 0" (R28). -/
def variantField (s : State) : BitVec 2 := if s.flags.initd then s.ctx.var.bits else 0

/-- The STATUS word (R28), most significant field first: 63:14 zero, 13:12 VAR, 11:8 ERR, 7 zero, 6:5 SPH, 4 FAULT,
3 GVALID, 2 SVALID, 1 INITD, 0 BUSY. -/
def statusWord (s : State) : Word :=
  (0 : BitVec 50) ++ variantField s ++ s.flags.err.bits ++ (0 : BitVec 1) ++ streamPhase s ++
    BitVec.ofBool s.flags.fault ++ BitVec.ofBool s.flags.gvalid ++ BitVec.ofBool s.flags.svalid ++
    BitVec.ofBool s.flags.initd ++ BitVec.ofBool s.flags.busy

/-- What STATUS shows while a command that starts in `s` executes: BUSY = 1, and "the other fields show the values
they had before the running command started" (R28). -/
def statusBusy (s : State) : Word := statusWord s ||| 1

/-- What a read of STATUS returns: while BUSY = 1 the view latched when the running command started (R28). -/
def statusRead (s : State) : Word :=
  if s.flags.busy then s.port.during.getD (statusWord s) else statusWord s

end Sys2Proof.Machine
end

