-- ==== Sys2Proof/Machine/Operands.lean ====
section
/-! DEFINITION. Where operands come from: the little-endian reads over a byte sequence (spec/00_scope.md R11,
spec/20_memory.md R65 to R67), the chunk a HASH or WRITE names (R61), the secret banks (spec/30_encoding.md R97, R98)
and the built-in default secret (spec/41_init.md R141). -/

namespace Sys2Proof.Machine

/-- Byte `m[i]`, zero-extended to 64 bits. Used only with `i < |m|`. -/
def byteAt (m : List Byte) (i : Nat) : Word := (m.getD i 0).setWidth 64

/-- `LE64(m, o)`, defined when `o + 8 <= |m|` (R65). -/
def le64 (m : List Byte) (o : Nat) : Word := BitVec.ofNat 64 (leNat ((m.drop o).take 8))

/-- `LE32(m, o)`, defined when `o + 4 <= |m|` (R65). -/
def le32 (m : List Byte) (o : Nat) : BitVec 32 := BitVec.ofNat 32 (leNat ((m.drop o).take 4))

/-- `LE16(m, o)`, defined when `o + 2 <= |m|`; "defined ... for completeness and ... used by no rule" (R67). -/
def le16 (m : List Byte) (o : Nat) : BitVec 16 := BitVec.ofNat 16 (leNat ((m.drop o).take 2))

/-- `LETAIL(m)` for `0 <= |m| <= 8`: the bytes in the low bits; no rule needs it (R66). -/
def leTail (m : List Byte) : Word := BitVec.ofNat 64 (leNat m)

/-- The chunk `c` of a HASH or WRITE: `c[i] = MSG[PTR + i]` for `0 <= i < LEN` (R61). -/
def chunk (s : State) : List Byte := s.msg.readBytes s.ops.ptr.toNat s.ops.len.toNat

/-- `PTR + LEN <= MSG_BYTES`, the sum taken in the integers (R234). -/
def chunkInRange (s : State) : Bool := decide (s.ops.ptr.toNat + s.ops.len.toNat ≤ s.params.msgBytes)

/-- `TLEN + LEN <= 2^64 - 1`, the sum taken in the integers (R235). -/
def lengthFits (s : State) : Bool := decide (s.stream.tlen.toNat + s.ops.len.toNat < 2 ^ 64)

/-- `DEFAULT_SECRET[0..3]`, which "must be reproduced exactly" (R141, R48). -/
def defaultSecret : Secret :=
  ⟨0xa0761d6478bd642f, 0xe7037ed1a0b428db, 0x8ebc6af09c88c6e3, 0x589965cc75374cc3⟩

/-- Word `i` of a bank; indices above 3 do not occur. -/
def Secret.get (k : Secret) (i : Nat) : Word :=
  match i with
  | 0 => k.w0
  | 1 => k.w1
  | 2 => k.w2
  | _ => k.w3

/-- The bank with word `i` replaced; an index above 3, which does not occur, replaces nothing. -/
def Secret.set (k : Secret) (i : Nat) (x : Word) : Secret :=
  match i with
  | 0 => { k with w0 := x }
  | 1 => { k with w1 := x }
  | 2 => { k with w2 := x }
  | 3 => { k with w3 := x }
  | _ => k

/-- The four words as a list, word 0 first. -/
def Secret.words (k : Secret) : List Word := [k.w0, k.w1, k.w2, k.w3]

end Sys2Proof.Machine
end

