-- ==== Sys2Proof/Machine/Ops.lean ====
section
/-! DEFINITION. The named operations over registers: the updates the meanings are made of, the start of a command,
entering the fault state (spec/60_exceptions.md R236) and what alone leaves it, reset (spec/70_reset_and_hazards.md
R260). -/

namespace Sys2Proof.Machine

/-- The result type of `exec` and `step`. -/
abbrev Result := Host.Outcome State Fault Refusal

/-! ### Register updates -/

/-- `DIGEST <- d` (R40). -/
def State.setDigest (s : State) (d : Word) : State := { s with res := { s.res with digest := d } }

/-- `RES0 <- x` (R39). -/
def State.setRes0 (s : State) (x : Word) : State := { s with res := { s.res with res0 := x } }

/-- `(RES0, RES1) <- p` (R39). -/
def State.setResPair (s : State) (p : Word × Word) : State :=
  { s with res := { s.res with res0 := p.1, res1 := p.2 } }

/-- The common effect of every INIT, all at once: VAR, K and SEED written, INITD set, SVALID cleared (R142). -/
def State.loadContext (s : State) (c : EngineCtx) : State :=
  { s with ctx := c, flags := { s.flags with initd := true, svalid := false } }

/-- The stream context replaced, the flags left alone (R182). -/
def State.setStream (s : State) (st : StreamCtx) : State := { s with stream := st }

/-- The stream context replaced and SVALID set (R181). -/
def State.openStream (s : State) (st : StreamCtx) : State :=
  { s with stream := st, flags := { s.flags with svalid := true } }

/-- The sequencer registers replaced. -/
def State.setSeq (s : State) (q : Sequencer) : State := { s with seq := q }

/-- The operand registers replaced (R34 to R37). -/
def State.setOps (s : State) (o : Operands) : State := { s with ops := o }

/-- The message memory replaced (R62). -/
def State.setMsg (s : State) (m : Memory) : State := { s with msg := m }

/-! ### The port -/

/-- The events still to come. -/
def State.setEvents (s : State) (es : List HostEvent) : State := { s with port := { s.port with events := es } }

/-- The held accesses (R75). -/
def State.setHeld (s : State) (as : List HostAccess) : State := { s with port := { s.port with held := as } }

/-- A read completes: its value is answered to the host. -/
def State.reply (s : State) (x : Word) : State :=
  { s with port := { s.port with replies := x :: s.port.replies } }

/-- The host has seen the last command end: STATUS reads show the registers as they now are. -/
def State.endWindow (s : State) : State := { s with port := { s.port with during := none } }

/-- A command has passed its checks and starts (R238 line 7): what STATUS shows until it ends is latched (R28).
BUSY itself is set and cleared within the step of a command that runs to completion in it (R20). -/
def State.startCommand (s : State) : State :=
  { s with port := { s.port with during := some (statusBusy s) } }

/-! ### The fault state -/

/-- `raise Fault(code, w)`: FAULT <- 1, ERR <- code, ERRINFO <- w, BUSY <- 0, "and nothing else"; "Control goes
nowhere: there is no handler" (R236). -/
def State.raiseFault (s : State) (code : ErrCode) (w : Word) : State :=
  { s with flags := { s.flags with fault := true, err := code, busy := false },
           res := { s.res with errInfo := w },
           port := { s.port with during := none } }

/-- A command whose check fails: the fault, with the command's own word in ERRINFO (R231), as a next state. -/
def faultWith (code : ErrCode) (i : Instr) (s : State) : Result := .next (s.raiseFault code (cmdValue i))

/-- Reset (R260), the only way out of the fault state (R237) and out of a GENSEC that does not end (R219): every
register at its reset value, "message memory : unchanged". The parameters are the machine's own; what the host does
next, has issued and has been answered is not the engine's to change (log entry 8). -/
def State.resetEngine (s : State) : State :=
  { State.reset with msg := s.msg, params := s.params, port := { s.port with during := none } }

end Sys2Proof.Machine
end

