-- ==== Sys2Proof/Machine/Init.lean ====
section
/-! DEFINITION. Engine construction: the seed transform (spec/41_init.md R140) and the commands INIT.D, INIT.S and INIT.G
(R142 to R145). -/

namespace Sys2Proof.Machine

/-- `SeedInit_v(K, seed) = seed ^ mix_v(seed ^ K[0], K[1])` (R140). -/
def seedInit (v : Variant) (k : Secret) (seed : Word) : Word := seed ^^^ mix v (seed ^^^ k.w0) k.w1

/-- The engine context a construction gives (R142): the variant and the secret latched, the raw seed transformed once. -/
def construct (v : Variant) (k : Secret) (seed : Word) : EngineCtx :=
  { var := v, k := k, seed := seedInit v k seed }

/-- `INIT.D.v`: construction with the default secret (R143). -/
def execInitD (v : Variant) (s : State) : Result :=
  .next (s.startCommand.loadContext (construct v defaultSecret s.ops.seedIn))

/-- `INIT.S.v`: construction with the caller's secret in SEC_IN, which "is not checked" (R144). -/
def execInitS (v : Variant) (s : State) : Result :=
  .next (s.startCommand.loadContext (construct v s.ops.secIn s.ops.seedIn))

/-- `INIT.G.v`: construction with the generated secret in GSEC; NO_GSEC when GVALID = 0 (R145, R233). -/
def execInitG (v : Variant) (s : State) : Result :=
  if s.flags.gvalid = false then faultWith .noGsec (.initG v) s
  else .next (s.startCommand.loadContext (construct v s.res.gsec s.ops.seedIn))

end Sys2Proof.Machine
end

