-- ==== Sys2Proof/Machine/MulMix.lean ====
section
/-! DEFINITION. The commands MUM and MIX (spec/40_mulmix.md R127, R128), the test port of the multiply-mix primitive. -/

namespace Sys2Proof.Machine

/-- `MUM.v`: `(RES0, RES1) <- mum_v(OPA, OPB)`; "INITD need not be set" and no operand faults (R127). -/
def execMum (v : Variant) (s : State) : Result :=
  .next (s.startCommand.setResPair (mum v s.ops.opA s.ops.opB))

/-- `MIX.v`: `RES0 <- mix_v(OPA, OPB)`; "RES1 is left unchanged" (R128). -/
def execMix (v : Variant) (s : State) : Result :=
  .next (s.startCommand.setRes0 (mix v s.ops.opA s.ops.opB))

end Sys2Proof.Machine
end

