-- ==== Sys2Proof/Machine/OneShot.lean ====
section
/-! DEFINITION. The one-shot hash (spec/42_oneshot.md): the length regimes, the 16-byte round, the 48-byte block, the final
window, the epilogue, the function `Hash_v` and the command HASH. -/

namespace Sys2Proof.Machine

/-- A 32-bit word in both halves of a 64-bit word: `(u << 32) | u` (R154). -/
def doubled (u : BitVec 32) : Word := (u.setWidth 64 <<< 32) ||| u.setWidth 64

/-- `ShortAB(m)` for `|m| <= 16` (R152 to R156). -/
def shortAB (m : List Byte) : Word × Word :=
  let n := m.length
  if n = 0 then (0, 0)
  else if n ≤ 3 then ((byteAt m 0 <<< 16) ||| (byteAt m (n / 2) <<< 8) ||| byteAt m (n - 1), 0)
  else if n ≤ 7 then (doubled (le32 m 0), doubled (le32 m (n - 4)))
  else (rot32 (le64 m 0), le64 m (n - 8))

/-- `Round16_v(K, s, w0, w1) = mix_v(w0 ^ K[1], w1 ^ s)` (R158). -/
def round16 (v : Variant) (k : Secret) (s w0 w1 : Word) : Word := mix v (w0 ^^^ k.w1) (w1 ^^^ s)

/-- `Block48_v(K, s0, s1, s2, blk)`: lane `j` takes the 16 bytes from `16j` and is keyed with `K[j+1]` (R160, D10). -/
def block48 (v : Variant) (k : Secret) (l : Lanes) (blk : List Byte) : Lanes :=
  { s0 := mix v (le64 blk 0 ^^^ k.w1) (le64 blk 8 ^^^ l.s0)
    s1 := mix v (le64 blk 16 ^^^ k.w2) (le64 blk 24 ^^^ l.s1)
    s2 := mix v (le64 blk 32 ^^^ k.w3) (le64 blk 40 ^^^ l.s2) }

/-- The three lane seeds merged: `s0 ^ s1 ^ s2` (R161, R188). -/
def Lanes.merge (l : Lanes) : Word := l.s0 ^^^ l.s1 ^^^ l.s2

/-- All three lanes at one value: `(W, W, W)` (R161, R181, D11). -/
def Lanes.all (w : Word) : Lanes := ⟨w, w, w⟩

/-- The block loop (R161): a block is folded "only while more than 48 bytes remain". Answers the lane seeds and the
bytes that remain. The first argument bounds the passes; the length of the message is always enough. -/
def blockLoop (v : Variant) (k : Secret) : Nat → Lanes → List Byte → Lanes × List Byte
  | 0, l, m => (l, m)
  | fuel + 1, l, m =>
    if m.length > 48 then blockLoop v k fuel (block48 v k l (m.take 48)) (m.drop 48) else (l, m)

/-- The round loop (R159): a round is run while more than 16 bytes remain. -/
def roundLoop (v : Variant) (k : Secret) : Nat → Word → List Byte → Word
  | 0, s, _ => s
  | fuel + 1, s, m =>
    if m.length > 16 then roundLoop v k fuel (round16 v k s (le64 m 0) (le64 m 8)) (m.drop 16) else s

/-- The running seed and the remaining bytes after the blocks: `(W, m)` itself when `|m| <= 48` (R161). -/
def foldBlocks (v : Variant) (k : Secret) (w : Word) (m : List Byte) : Word × List Byte :=
  if m.length > 48 then
    let r := blockLoop v k m.length (Lanes.all w) m
    (r.1.merge, r.2)
  else (w, m)

/-- The running seed that enters the epilogue of a message longer than 16 bytes (R157, R159, R161). -/
def longSeed (v : Variant) (k : Secret) (w : Word) (m : List Byte) : Word :=
  let r := foldBlocks v k w m
  roundLoop v k r.2.length r.1 r.2

/-- The final window: the last 16 bytes of the message, first eight to `a`, last eight to `b` (R162, D12). -/
def finalWindow (m : List Byte) : Word × Word := (le64 m (m.length - 16), le64 m (m.length - 8))

/-- `Epilogue_v(K, s, a, b, len)` (R163). -/
def epilogue (v : Variant) (k : Secret) (s a b len : Word) : Word :=
  let p := mum v (a ^^^ k.w1) (b ^^^ s)
  mix v (p.1 ^^^ k.w0 ^^^ len) (p.2 ^^^ k.w1)

/-- `Hash_v(K, W, m)` (R164). -/
def hashV (v : Variant) (k : Secret) (w : Word) (m : List Byte) : Word :=
  let ab := if m.length ≤ 16 then shortAB m else finalWindow m
  let s := if m.length ≤ 16 then w else longSeed v k w m
  epilogue v k s ab.1 ab.2 (BitVec.ofNat 64 m.length)

/-- `HASH`: NO_ENGINE, then BOUNDS, then `DIGEST <- Hash_VAR(K, SEED, m)` over the chunk (R150, R238). -/
def execHash (s : State) : Result :=
  if s.flags.initd = false then faultWith .noEngine .hash s
  else if chunkInRange s = false then faultWith .bounds .hash s
  else .next (s.startCommand.setDigest (hashV s.ctx.var s.ctx.k s.ctx.seed (chunk s)))

end Sys2Proof.Machine
end

