-- ==== Sys2Proof/Machine/SecretGen.lean ====
section
/-! DEFINITION. The secret generator (spec/44_secretgen.md): one step of the byte generator, the acceptance tests, the
state machine of R216 that runs a GENSEC, its command, and the function of R217 the machine computes. -/

namespace Sys2Proof.Machine

/-- The counter after its advance, `G +64 GEN_INC` (R212). -/
def genAdvance (p : Params) (g : Word) : Word := g + p.genInc

/-- The byte drawn from the advanced counter: `GEN_TABLE[mix_v(G, G ^ GEN_XOR) mod 70]` (R212). -/
def genByte (p : Params) (v : Variant) (g : Word) : Byte :=
  p.genTable[(mix v g (g ^^^ p.genXor)).toNat % 70]'(Nat.mod_lt _ (by decide))

/-- A byte placed at bits `8j+7 : 8j` of a word (R214). -/
def placeByte (b : Byte) (j : Nat) : Word := b.setWidth 64 <<< (8 * j)

/-- `odd_ok(CAND)` (R215). -/
def oddOk (c : Word) : Bool := c.getLsbD 0

/-- Two words at Hamming distance exactly 32 (R215). -/
def halfDistance (a b : Word) : Bool := decide (popcount (a ^^^ b) = 32)

/-- `accept` for a candidate against the words accepted so far (R215). -/
def acceptable (c : Word) (acc : List Word) : Bool := oddOk c && acc.all (halfDistance c)

/-! ### The state machine of R216 -/

/-- `CAND <- 0; GJ <- 0`, back to drawing: a rejected or a stored candidate (R216). -/
def Sequencer.nextCandidate (q : Sequencer) : Sequencer := { q with cand := 0, gj := 0, gph := .draw }

/-- G_IDLE on an accepted GENSEC: GVALID <- 0, the counter at SEED_IN, no word accepted, `v` remembered, BUSY set.
GK keeps its value: it is written before it is read (R38, R216). -/
def State.startGensec (s : State) (v : Variant) : State :=
  { s with
    flags := { s.flags with busy := true, gvalid := false }
    seq := { s.seq with g := s.ops.seedIn, cand := 0, gi := 0, gj := 0, gph := .draw, gvar := v } }

/-- The action of the phase G_DRAW (R216). -/
def genDraw (p : Params) (q : Sequencer) : Sequencer :=
  let g := genAdvance p q.g
  { q with
    g := g
    cand := q.cand ||| placeByte (genByte p q.gvar g) q.gj.toNat
    gj := q.gj + 1
    gph := if q.gj + 1 = 8 then .odd else .draw }

/-- The action of the phase G_ODD (R216). -/
def genOdd (q : Sequencer) : Sequencer :=
  if oddOk q.cand then { q with gk := 0, gph := .ham } else q.nextCandidate

/-- The action of the phase G_HAM: CAND against the accepted word GSEC[GK] (R216). -/
def genHam (gsec : Secret) (q : Sequencer) : Sequencer :=
  if q.gk.toNat = q.gi.toNat then { q with gph := .accept }
  else if halfDistance q.cand (gsec.get q.gk.toNat) then { q with gk := q.gk + 1 }
  else q.nextCandidate

/-- The action of the phase G_ACCEPT on the sequencer; GSEC[GI] takes the candidate beside it (R216). -/
def genAccept (q : Sequencer) : Sequencer :=
  { q.nextCandidate with gi := q.gi + 1, gph := if q.gi + 1 = 4 then .done else .draw }

/-- GSEC[GI] <- CAND (R216). -/
def State.storeWord (s : State) : State :=
  { s with res := { s.res with gsec := s.res.gsec.set s.seq.gi.toNat s.seq.cand } }

/-- G_DONE: GVALID <- 1; BUSY <- 0; the machine is idle and STATUS shows the flags as they now are (R216). Outside a
GENSEC the registers G, CAND, GI, GJ and GK "hold no defined value" (R38), and R216 gives the held variant none there
either; that they keep their last values is the model's choice (DESIGN CHOICE, log entry 22). -/
def State.endGensec (s : State) : State :=
  { s with
    flags := { s.flags with busy := false, gvalid := true }
    seq := { s.seq with gph := .idle }
    port := { s.port with during := none } }

/-- One step of the running secret generator (R216). With no GENSEC running it does nothing. -/
def genStep (s : State) : State :=
  match s.seq.gph with
  | .idle => s
  | .draw => s.setSeq (genDraw s.params s.seq)
  | .odd => s.setSeq (genOdd s.seq)
  | .ham => s.setSeq (genHam s.res.gsec s.seq)
  | .accept => s.storeWord.setSeq (genAccept s.seq)
  | .done => s.endGensec

/-- `GENSEC.v`: the machine leaves G_IDLE (R210, R216). It raises no fault ("`SecretGenerator` cannot fail"). The words
are drawn by the steps that follow, and nothing bounds how many there are (R219). -/
def execGensec (v : Variant) (s : State) : Result := .next (s.startCommand.startGensec v)

/-! ### The function of R217 -/

/-- `n` bytes drawn into a word from position `j` up: the word and the counter it leaves (R214). -/
def drawBytes (p : Params) (v : Variant) : Nat → Nat → Word → Word → Word × Word
  | 0, _, g, c => (c, g)
  | n + 1, j, g, c =>
    drawBytes p v n (j + 1) (genAdvance p g) (c ||| placeByte (genByte p v (genAdvance p g)) j)

/-- One candidate word, eight draws, and the counter it leaves (R214). -/
def drawWord (p : Params) (v : Variant) (g : Word) : Word × Word := drawBytes p v 8 0 g 0

/-- The rejection loop (R217) with at most `fuel` candidates: `need` words are still to be found, `acc` are accepted.
`none` says only that this many candidates do not suffice: "a model must not define GENSEC as a total function by
fiat" (R219). -/
def genLoop (p : Params) (v : Variant) : Nat → Nat → Word → List Word → Option (List Word)
  | _, 0, _, acc => some acc
  | 0, _ + 1, _, _ => none
  | fuel + 1, need + 1, g, acc =>
    let w := drawWord p v g
    if acceptable w.1 acc then genLoop p v fuel need w.2 (acc ++ [w.1])
    else genLoop p v fuel (need + 1) w.2 acc

/-- `GenSecret_v(seed)` (R217), where `fuel` candidates suffice for it. -/
def genSecret (p : Params) (v : Variant) (fuel : Nat) (seed : Word) : Option (List Word) :=
  genLoop p v fuel 4 seed []

end Sys2Proof.Machine
end

