-- ==== Sys2Proof/Machine/Streaming.lean ====
section
/-! DEFINITION. The streaming hasher (spec/43_streaming.md): the buffer copies, the two paths of a WRITE, the replay of the
length dispatch in FINISH, and the commands SOPEN, WRITE and FINISH. -/

namespace Sys2Proof.Machine

/-- `BUF[off + i] <- c[i]` for every `i` with `off + i < 48`; the other bytes keep their values (R183, R184). -/
def bufCopy (b : Vector Byte 48) (off : Nat) (c : List Byte) : Vector Byte 48 :=
  ⟨⟨b.toList.take off ++ (c.take (48 - off) ++ b.toList.drop (off + c.length))⟩, by
    simp only [List.size_toArray, List.length_append, List.length_take, List.length_drop, Vector.length_toList]
    omega⟩

/-- The stream SOPEN leaves: the working seed in all three lanes, BUF zero, OFF and TLEN zero (R181, D23). -/
def emptyStream (w : Word) : StreamCtx :=
  { lanes := Lanes.all w, buf := Vector.replicate 48 0, off := 0, tlen := 0 }

/-- The fits path, `OFF + n <= 48`: "the chunk is appended and nothing is folded" (R183). -/
def writeFits (st : StreamCtx) (c : List Byte) : StreamCtx :=
  { st with
    buf := bufCopy st.buf st.off.toNat c
    off := BitVec.ofNat 6 (st.off.toNat + c.length)
    tlen := st.tlen + BitVec.ofNat 64 c.length }

/-- Step 2 of the overflow path: while more than 48 bytes of the chunk remain, fold the next 48 directly and copy their
last 16 back to BUF[32..48) (R184). Answers the lanes, the buffer and the tail of the chunk. The first argument
bounds the passes; the length of the chunk is always enough. -/
def directLoop (v : Variant) (k : Secret) : Nat → Lanes → Vector Byte 48 → List Byte →
    Lanes × Vector Byte 48 × List Byte
  | 0, l, b, c => (l, b, c)
  | fuel + 1, l, b, c =>
    if c.length > 48 then
      directLoop v k fuel (block48 v k l (c.take 48)) (bufCopy b 32 ((c.drop 32).take 16)) (c.drop 48)
    else (l, b, c)

/-- The overflow path, `OFF + n > 48` (R184): top off and fold the buffer, fold whole blocks straight from the chunk,
keep the tail. The lanes are not merged (R185, C1). -/
def writeOverflow (v : Variant) (k : Secret) (st : StreamCtx) (c : List Byte) : StreamCtx :=
  let t := 48 - st.off.toNat
  let full := bufCopy st.buf st.off.toNat (c.take t)
  let r := directLoop v k c.length (block48 v k st.lanes full.toList) full (c.drop t)
  { lanes := r.1
    buf := bufCopy r.2.1 0 r.2.2
    off := BitVec.ofNat 6 r.2.2.length
    tlen := st.tlen + BitVec.ofNat 64 c.length }

/-- The stream context after a WRITE of the chunk `c` (R182). -/
def streamWrite (v : Variant) (k : Secret) (st : StreamCtx) (c : List Byte) : StreamCtx :=
  if st.off.toNat + c.length ≤ 48 then writeFits st c else writeOverflow v k st c

/-- FINISH's running seed before its rounds: merged only when a block has been folded (R188). -/
def finishSeed (st : StreamCtx) : Word :=
  if st.tlen.toNat > 48 then st.lanes.merge else st.lanes.s0

/-- FINISH's rounds over the buffer's front: one when OFF > 16, two when OFF > 32 (R188). -/
def finishRounds (v : Variant) (k : Secret) (st : StreamCtx) : Word :=
  let b := st.buf.toList
  let s := finishSeed st
  let s := if st.off.toNat > 16 then round16 v k s (le64 b 0) (le64 b 8) else s
  if st.off.toNat > 32 then round16 v k s (le64 b 16) (le64 b 24) else s

/-- The final 16-byte window rebuilt from the buffer: `BUF[OFF-16..OFF)`, or, when OFF < 16,
`BUF[32+OFF..48) ++ BUF[0..OFF)` (R188). -/
def finishWindow (st : StreamCtx) : List Byte :=
  let b := st.buf.toList
  let o := st.off.toNat
  if 16 ≤ o then (b.drop (o - 16)).take 16 else b.drop (32 + o) ++ b.take o

/-- The digest FINISH computes from the stream context (R188). -/
def streamFinish (v : Variant) (k : Secret) (st : StreamCtx) : Word :=
  if st.tlen.toNat ≤ 16 then
    let ab := shortAB (st.buf.toList.take st.tlen.toNat)
    epilogue v k (finishSeed st) ab.1 ab.2 st.tlen
  else
    epilogue v k (finishRounds v k st) (le64 (finishWindow st) 0) (le64 (finishWindow st) 8) st.tlen

/-- `SOPEN`: NO_ENGINE, else the empty stream under the current engine context (R181). -/
def execSopen (s : State) : Result :=
  if s.flags.initd = false then faultWith .noEngine .sopen s
  else .next (s.startCommand.openStream (emptyStream s.ctx.seed))

/-- `WRITE`: NO_STREAM, BOUNDS, LEN_OVERFLOW, in that order, else the chunk is written to the stream (R182, R238). -/
def execWrite (s : State) : Result :=
  if s.flags.svalid = false then faultWith .noStream .write s
  else if chunkInRange s = false then faultWith .bounds .write s
  else if lengthFits s = false then faultWith .lenOverflow .write s
  else .next (s.startCommand.setStream (streamWrite s.ctx.var s.ctx.k s.stream (chunk s)))

/-- `FINISH`: NO_STREAM, else DIGEST from the stream context, which is not changed (R188, R189, R192). -/
def execFinish (s : State) : Result :=
  if s.flags.svalid = false then faultWith .noStream .finish s
  else .next (s.startCommand.setDigest (streamFinish s.ctx.var s.ctx.k s.stream))

end Sys2Proof.Machine
end

