-- ==== Sys2Proof/Machine/Dispatch.lean ====
section
/-! DEFINITION. One arm per command: the meaning of an instruction is the definition its arm calls. -/

namespace Sys2Proof.Machine

def exec (i : Instr) (s : State) : Host.Outcome State Fault Refusal :=
  match i with
  | .mum v => Sys2Proof.Machine.execMum v s
  | .mix v => Sys2Proof.Machine.execMix v s
  | .initD v => Sys2Proof.Machine.execInitD v s
  | .initS v => Sys2Proof.Machine.execInitS v s
  | .initG v => Sys2Proof.Machine.execInitG v s
  | .hash => Sys2Proof.Machine.execHash s
  | .sopen => Sys2Proof.Machine.execSopen s
  | .write => Sys2Proof.Machine.execWrite s
  | .finish => Sys2Proof.Machine.execFinish s
  | .gensec v => Sys2Proof.Machine.execGensec v s

end Sys2Proof.Machine
end

