-- ==== Sys2Proof/WellFormed.lean ====
section
/-! DEFINITION. Well-formedness. A command's only field is the variant, a closed type whose four values are all legal
(spec/30_encoding.md R96), so every `Instr` is well formed. What can be ill formed is a host access to the message
memory (spec/20_memory.md R62), a program that uses a name no earlier line has bound (spec/30_encoding.md R103) and a
set of parameters (spec/00_scope.md R7). -/

namespace Sys2Proof

/-- Every term of `Instr` is a command of the table: "All four values are legal wherever the format has the field"
(R96). Listed per constructor so that a new command must say what its check is. -/
def Instr.wellFormed : Instr → Bool
  | .mum _ => true
  | .mix _ => true
  | .initD _ => true
  | .initS _ => true
  | .initG _ => true
  | .hash => true
  | .sopen => true
  | .write => true
  | .finish => true
  | .gensec _ => true

/-- A host access the spec gives a meaning: every register access (R26, R46), and a message-memory access of 1 to 8
bytes that lies in `[0, MSG_BYTES)` (R62). -/
def HostAccess.wellFormed (p : Params) : HostAccess → Bool
  | .regRead _ => true
  | .regWrite _ _ => true
  | .memRead a n => decide (1 ≤ n ∧ n ≤ 8 ∧ a + n ≤ p.msgBytes)
  | .memWrite a n _ => decide (1 ≤ n ∧ n ≤ 8 ∧ a + n ≤ p.msgBytes)

/-- A value that is a number, or a name among those bound (R103). -/
def Value.wellFormed (bound : List String) : Value → Bool
  | .num _ => true
  | .name n => bound.contains n

/-- The names bound after a line (R103). -/
def Directive.boundAfter (bound : List String) : Directive → List String
  | .rd _ (some n) => n :: bound
  | .rd _ none => bound
  | .command _ => bound
  | .wr _ _ => bound
  | .place _ _ => bound

/-- A program in which every name is "bound by an earlier `RD`" (R103); `bound` are the names bound before it. -/
def programWellFormed (bound : List String) : List Directive → Bool
  | [] => true
  | .wr r x :: rest => x.wellFormed bound && programWellFormed ((Directive.wr r x).boundAfter bound) rest
  | .command i :: rest => programWellFormed ((Directive.command i).boundAfter bound) rest
  | .rd r b :: rest => programWellFormed ((Directive.rd r b).boundAfter bound) rest
  | .place a b :: rest => programWellFormed ((Directive.place a b).boundAfter bound) rest

/-- The constraints R7 and R213 put on the OPEN parameters: `MSG_BYTES <= 2^64`, `GEN_INC` odd. (That the table has
70 entries is in its type.) -/
def Params.wellFormed (p : Params) : Bool :=
  decide (p.msgBytes ≤ 2 ^ 64) && p.genInc.getLsbD 0

end Sys2Proof
end

