-- ==== Sys2Proof/Machine/HostPort.lean ====
section
/-! DEFINITION. Host accesses other than a write to CMD: the register file (spec/10_state.md R26 to R29, R34 to R46) and the
host's own path to the message memory (spec/20_memory.md R62). -/

namespace Sys2Proof.Machine

/-- What a read of a register returns. No register read has a side effect (R72); a read of CMD returns 0 (R27). -/
def readReg (r : HostReg) (s : State) : Word :=
  match r with
  | .cmd => 0
  | .status => statusRead s
  | .errInfo => s.res.errInfo
  | .seedIn => s.ops.seedIn
  | .secIn0 => s.ops.secIn.w0
  | .secIn1 => s.ops.secIn.w1
  | .secIn2 => s.ops.secIn.w2
  | .secIn3 => s.ops.secIn.w3
  | .ptr => s.ops.ptr
  | .len => s.ops.len
  | .opA => s.ops.opA
  | .opB => s.ops.opB
  | .res0 => s.res.res0
  | .res1 => s.res.res1
  | .digest => s.res.digest
  | .gsec0 => s.res.gsec.w0
  | .gsec1 => s.res.gsec.w1
  | .gsec2 => s.res.gsec.w2
  | .gsec3 => s.res.gsec.w3

/-- `RegRead(num)`: a reserved number reads 0 (R46). -/
def regRead (num : Nat) (s : State) : Word :=
  match HostReg.ofNum num with
  | some r => readReg r s
  | none => 0

/-- The operand registers after a write; a write to a read-only register "has no effect" (R46). CMD is not written
here (R27). -/
def writeReg (r : HostReg) (x : Word) (o : Operands) : Operands :=
  match r with
  | .cmd => o
  | .status => o
  | .errInfo => o
  | .seedIn => { o with seedIn := x }
  | .secIn0 => { o with secIn := { o.secIn with w0 := x } }
  | .secIn1 => { o with secIn := { o.secIn with w1 := x } }
  | .secIn2 => { o with secIn := { o.secIn with w2 := x } }
  | .secIn3 => { o with secIn := { o.secIn with w3 := x } }
  | .ptr => { o with ptr := x }
  | .len => { o with len := x }
  | .opA => { o with opA := x }
  | .opB => { o with opB := x }
  | .res0 => o
  | .res1 => o
  | .digest => o
  | .gsec0 => o
  | .gsec1 => o
  | .gsec2 => o
  | .gsec3 => o

/-- `RegWrite(num, x)` for a register that is not CMD; a reserved number ignores it (R46). -/
def regWrite (num : Nat) (x : Word) (s : State) : State :=
  match HostReg.ofNum num with
  | some r => s.setOps (writeReg r x s.ops)
  | none => s

/-- `MemRead(addr, n)` by the host: `1 <= n <= 8` bytes inside the message memory (R62). -/
def memRead (a : Nat) (n : Nat) (s : State) : Result :=
  if n = 0 ∨ n > 8 then .refused .hostMemWidth
  else if a + n > s.params.msgBytes then .fault .hostMemOutside
  else .next (s.reply (s.msg.readLE a n))

/-- `MemWrite(addr, n, v)` by the host: `1 <= n <= 8` bytes inside the message memory (R62). -/
def memWrite (a : Nat) (n : Nat) (v : Word) (s : State) : Result :=
  if n = 0 ∨ n > 8 then .refused .hostMemWidth
  else if a + n > s.params.msgBytes then .fault .hostMemOutside
  else .next (s.setMsg (s.msg.writeLE a n v))

/-- Is this the one access that is never held (R75)? -/
def HostAccess.isStatusRead (a : HostAccess) : Bool := decide (a = .regRead 0x01)

/-- A STATUS read completes; it ends the window of the last command unless one is still executing (R28). -/
def readStatus (s : State) : State :=
  if s.flags.busy then s.reply (statusRead s) else s.endWindow.reply (statusRead s)

/-- A STATUS read that arrived while the command accepted last was executing completes with that command's view
(R28, R75); where no command is in that window it is an ordinary STATUS read. -/
def readStatusDuring (s : State) : State := s.reply (s.port.during.getD (statusRead s))

/-- An access arrives while it cannot complete: it waits behind those already held (R75). -/
def State.hold (s : State) (a : HostAccess) : State := s.setHeld (s.port.held ++ [a])

end Sys2Proof.Machine
end

