-- ==== Sys2Proof/Machine/Serve.lean ====
section
/-! DEFINITION. What one move does: a command word offered at CMD (spec/10_state.md R27, spec/60_exceptions.md R237, R238),
an access that completes, an event that arrives, and the engine's own move (spec/20_memory.md R75). -/

namespace Sys2Proof.Machine

/-- A value written to CMD with BUSY = 0: refused without effect while FAULT = 1; an illegal value faults with
ILLEGAL_CMD; a command executes, with its own checks first (R237, R238). -/
def offerCommand (w : Word) (s : State) : Result :=
  if s.flags.fault then .next s
  else
    match decode w with
    | .illegal _ => .next (s.raiseFault .illegalCmd w)
    | .command i => exec i s

/-- An access completes. Since every access but a STATUS read waits for the running command to end, the host has seen
it end (R75). -/
def serve (a : HostAccess) (s : State) : Result :=
  match a with
  | .regRead n => .next (s.endWindow.reply (regRead n s))
  | .regWrite n x => if n = 0 then offerCommand x s.endWindow else .next (regWrite n x s.endWindow)
  | .memRead a n => memRead a n s.endWindow
  | .memWrite a n v => memWrite a n v s.endWindow

/-- The engine's move: a step of the running command; else the oldest held access completes; else nothing ("The engine
never starts work by itself", R20). -/
def engineMove (s : State) : Result :=
  if s.flags.busy then .next (genStep s)
  else
    match s.port.held with
    | [] => .next s
    | a :: rest => serve a (s.setHeld rest)

/-- An access reaches the port: a STATUS read always completes; any other is held while BUSY = 1 or while earlier ones
are held, since they complete "in the order it was issued" (R75). -/
def arrive (a : HostAccess) (s : State) : Result :=
  if HostAccess.isStatusRead a then .next (readStatus s)
  else if s.flags.busy || !s.port.held.isEmpty then .next (s.hold a)
  else serve a s

/-- One event of the outside world. -/
def takeEvent (e : HostEvent) (s : State) : Result :=
  match e with
  | .access a => arrive a s
  | .statusDuring => .next (readStatusDuring s)
  | .quiet => engineMove s
  | .reset => .next s.resetEngine

end Sys2Proof.Machine
end

