-- ==== Sys2Proof/Machine/Step.lean ====
section
/-! DEFINITION. One step of the machine. There is no program counter and no instruction fetch (spec/10_state.md R24): the
next command is the next value the host writes to CMD, so the place where the step finds its next instruction is the
head of the port's list of events. -/

namespace Sys2Proof.Machine

/-- The next event of the outside world happens; when none is listed the engine moves. -/
def step (s : State) : Host.Outcome State Fault Refusal :=
  match s.port.events with
  | [] => engineMove s
  | e :: rest => takeEvent e (s.setEvents rest)

/-- The next event becomes the CMD write of the instruction whose bits are `w`: that is where `step` takes its next
instruction from. Nothing else changes (log entry 13). -/
def State.withFetchWord (s : State) (nbits w : Nat) : State :=
  s.setEvents (.access (.regWrite 0 (tableValue nbits w)) :: s.port.events)

end Sys2Proof.Machine
end

