-- ==== Sys2Proof/Machine/Program.lean ====
section
/-! DEFINITION. A host that runs a program (spec/30_encoding.md R103): a list of lines, each a host access, executed in
order, where "each host access completes (after any hold, `20_memory.md` rule R75) before the next is issued". The
engine it drives is the machine of Step.lean; nothing here is state of the engine. -/

namespace Sys2Proof.Machine

/-- A host running a program on an engine. -/
structure HostRun where
  /-- The engine. -/
  engine  : State
  /-- The names bound so far, the latest first. -/
  names   : List (String × Word)
  /-- The name that the read issued last, and not yet completed, will bind. -/
  waiting : Option String
  /-- The lines still to be executed. -/
  lines   : List Directive
  deriving DecidableEq, Repr

/-- What happens next; when a host issues its next access is the host's, so a run is given a list of turns (log entry
23). -/
inductive Turn where
  /-- The host goes on with its program. -/
  | issue
  /-- The host waits: the engine moves. -/
  | wait
  /-- The reset input (R260). -/
  | reset
  deriving DecidableEq, Repr

/-- The result type of a turn. -/
abbrev RunResult := Host.Outcome HostRun Fault Refusal

/-- The number a value stands for; a name stands for the value it was bound to last. -/
def Value.eval (names : List (String × Word)) : Value → Option Word
  | .num x => some x
  | .name n => names.lookup n

/-- The host access a line stands for (R103); none where its value is an unbound name. -/
def Directive.access (names : List (String × Word)) : Directive → Option HostAccess
  | .command i => some (.regWrite 0 (cmdValue i))
  | .wr r x => (Value.eval names x).map (.regWrite r.num)
  | .rd r _ => some (.regRead r.num)
  | .place a b => some (.memWrite a 1 (b.setWidth 64))

/-- The name a line binds, if any (R103). -/
def Directive.binds : Directive → Option String
  | .rd _ b => b
  | .command _ => none
  | .wr _ _ => none
  | .place _ _ => none

/-- When the read waited for has completed, its value is the latest answer and its name is bound to it. -/
def HostRun.bind (h : HostRun) : HostRun :=
  match h.engine.port.held, h.waiting, h.engine.port.replies with
  | [], some n, x :: _ => { h with names := (n, x) :: h.names, waiting := none }
  | _, _, _ => h

/-- One step of the engine with the event `e` first. -/
def HostRun.advance (e : HostEvent) (h : HostRun) : RunResult :=
  match step (h.engine.setEvents (e :: h.engine.port.events)) with
  | .next s => .next (HostRun.bind { h with engine := s })
  | .fault r => .fault r
  | .refused r => .refused r

/-- The next line is executed: its access is issued. With no line left the host is quiet. -/
def HostRun.issue (h : HostRun) : RunResult :=
  match h.lines with
  | [] => h.advance .quiet
  | d :: rest =>
    match Directive.access h.names d with
    | some a => HostRun.advance (.access a) { h with lines := rest, waiting := Directive.binds d }
    | none => .refused .unboundName

/-- One turn. A host whose earlier access is held waits for it: the next one is not issued before (R103, R75). -/
def HostRun.turn (t : Turn) (h : HostRun) : RunResult :=
  match t with
  | .issue => if h.engine.port.held.isEmpty then h.issue else h.advance .quiet
  | .wait => h.advance .quiet
  | .reset => h.advance .reset

/-- A run by its turns. -/
def HostRun.run : List Turn → HostRun → RunResult
  | [], h => .next h
  | t :: ts, h =>
    match h.turn t with
    | .next h' => HostRun.run ts h'
    | .fault r => .fault r
    | .refused r => .refused r

/-- A program about to start on an engine with nothing pending. -/
def HostRun.start (s : State) (program : List Directive) : HostRun :=
  { engine := s, names := [], waiting := none, lines := program }

end Sys2Proof.Machine
end

