-- ==== Sys2Proof/Safety.lean ====
section
/-! DEFINITION. The terms claims are stated in: frames, what a fault leaves, the invariant of the machine, the message a
stream stands for (spec/43_streaming.md R190), the hash counted by blocks and rounds (spec/42_oneshot.md R161, R165),
the hash with every read checked (spec/20_memory.md R82), and the states no host can tell apart
(spec/70_reset_and_hazards.md R262). Nothing here is part of the machine. -/

namespace Sys2Proof.Machine

/-! ### Frames -/

/-- Every byte of the message memory reads as before. -/
def MemoryUnchanged (s t : State) : Prop := ∀ a, t.msg.read a = s.msg.read a

/-- What the host does next, has issued and has been answered is as before. -/
def PortUnchanged (s t : State) : Prop :=
  t.port.events = s.port.events ∧ t.port.held = s.port.held ∧ t.port.replies = s.port.replies

/-- The command ran: STATUS reads that arrived while it did see BUSY = 1 and the flags from before it (R28). -/
def RanFrom (s t : State) : Prop := PortUnchanged s t ∧ t.port.during = some (statusWord s ||| 1)

/-- Fault entry (R236): FAULT, ERR, ERRINFO and BUSY as the rule says, and "Every other piece of state keeps the value
it had before the CMD write". -/
def FaultedWith (code : ErrCode) (w : Word) (s t : State) : Prop :=
  t.flags.fault = true ∧ t.flags.err = code ∧ t.flags.busy = false ∧
  t.flags.initd = s.flags.initd ∧ t.flags.svalid = s.flags.svalid ∧ t.flags.gvalid = s.flags.gvalid ∧
  t.res.errInfo = w ∧ t.res.res0 = s.res.res0 ∧ t.res.res1 = s.res.res1 ∧ t.res.digest = s.res.digest ∧
  t.res.gsec = s.res.gsec ∧ t.ctx = s.ctx ∧ t.stream = s.stream ∧ t.ops = s.ops ∧ t.seq = s.seq ∧
  t.params = s.params ∧ MemoryUnchanged s t ∧ PortUnchanged s t

/-! ### The command a step executes -/

/-- The command an access starts if it completes in `s`: a CMD write of a legal word, FAULT = 0 (R238). -/
def commandIn (a : HostAccess) (s : State) : Option Instr :=
  match a with
  | .regWrite 0 w =>
    if s.flags.fault then none
    else
      match decode w with
      | .command i => some i
      | .illegal _ => none
  | _ => none

/-- The oldest held access, if the engine is idle and so lets it complete (R75). -/
def commandHeld (s : State) : Option Instr :=
  if s.flags.busy then none
  else
    match s.port.held with
    | [] => none
    | a :: _ => commandIn a s

/-- The command the next step of the machine executes, if it executes one. -/
def commandOf (s : State) : Option Instr :=
  match s.port.events with
  | [] => commandHeld s
  | .quiet :: _ => commandHeld s
  | .access a :: _ =>
    if HostAccess.isStatusRead a || s.flags.busy || !s.port.held.isEmpty then none else commandIn a s
  | .statusDuring :: _ => none
  | .reset :: _ => none

/-- Is the next thing to happen a reset? -/
def resetNext (s : State) : Prop := ∃ rest, s.port.events = .reset :: rest

/-- Is the next step a step of the running secret generator? -/
def generatorNext (s : State) : Prop :=
  s.flags.busy = true ∧ (s.port.events = [] ∨ ∃ rest, s.port.events = .quiet :: rest)

/-! ### The invariant -/

/-- The property of a generated secret (R218): every word odd, every two at Hamming distance exactly 32. -/
def ValidWords (ws : List Word) : Prop :=
  (∀ w ∈ ws, oddOk w = true) ∧ ws.Pairwise (fun a b => halfDistance a b = true)

/-- The number of bytes that wait in the buffer when `n` bytes have been written (R190): all of them up to 48, then
1 to 48. -/
def tailLength (n : Nat) : Nat := n - 48 * ((n - 1) / 48)

/-- What holds between the registers in every state a run reaches. -/
structure Invariant (s : State) : Prop where
  /-- The message memory is in its canonical form and inside `[0, MSG_BYTES)` (R60). -/
  msgWf : s.msg.wf
  msgWithin : s.msg.within s.params.msgBytes
  /-- OFF "values 0 to 48 inclusive; 49 to 63 never occur" (R32). -/
  offBound : s.stream.off.toNat ≤ 48
  /-- OFF is the tail length of TLEN bytes while a stream is open (R190). -/
  offTail : s.flags.svalid = true → s.stream.off.toNat = tailLength s.stream.tlen.toNat
  /-- A stream is open only over an engine context (R181, R142). -/
  streamEngine : s.flags.svalid = true → s.flags.initd = true
  /-- BUSY = 1 between steps exactly while a GENSEC runs (R20, R216). -/
  busyPhase : s.flags.busy = true ↔ s.seq.gph ≠ .idle
  /-- The running command's STATUS view is latched (R28). -/
  busyView : s.flags.busy = true → s.port.during.isSome = true
  /-- A faulted engine runs nothing (R236, R237). -/
  faultIdle : s.flags.fault = true → s.flags.busy = false
  /-- ERR is "0 when FAULT = 0" and a code of R231 otherwise (R28). -/
  faultCode : s.flags.fault = true ↔ s.flags.err ≠ .noError
  /-- ERRINFO is "0 until the first fault" (R29). -/
  faultInfo : s.flags.fault = false → s.res.errInfo = 0
  /-- GVALID is 0 while a GENSEC runs (R25). -/
  busyInvalid : s.flags.busy = true → s.flags.gvalid = false
  /-- GVALID = 1 means GSEC holds a valid secret (R218). -/
  gsecValid : s.flags.gvalid = true → ValidWords s.res.gsec.words
  /-- The words accepted so far are valid among themselves (R215, R216). -/
  accepted : s.flags.busy = true → s.seq.gi.toNat ≤ 4 ∧ ValidWords (s.res.gsec.words.take s.seq.gi.toNat)
  /-- What each phase may rely on (R216). -/
  drawing : s.seq.gph = .draw → s.seq.gi.toNat < 4 ∧ s.seq.gj.toNat < 8
  testingOdd : s.seq.gph = .odd → s.seq.gi.toNat < 4
  testingHam : s.seq.gph = .ham → s.seq.gi.toNat < 4 ∧ s.seq.gk.toNat ≤ s.seq.gi.toNat ∧
    acceptable s.seq.cand (s.res.gsec.words.take s.seq.gk.toNat) = true
  accepting : s.seq.gph = .accept → s.seq.gi.toNat < 4 ∧
    acceptable s.seq.cand (s.res.gsec.words.take s.seq.gi.toNat) = true
  finished : s.seq.gph = .done → s.seq.gi.toNat = 4
  /-- STATUS reads are never held (R75). -/
  heldWait : ∀ a ∈ s.port.held, HostAccess.isStatusRead a = false

/-! ### The hash by counts

Written from the rules' own formulas, over `mum` and `mix` alone, so that they say what the model's rounds, blocks, merge
and epilogue compute. -/

/-- The lane seeds after the first `j` blocks of `m`, from `l` (R161). A block gives `mix(w[0] ^ K1, w[1] ^ s0)`,
`mix(w[2] ^ K2, w[3] ^ s1)`, `mix(w[4] ^ K3, w[5] ^ s2)` of its six words (R160). -/
def lanesAfter (v : Variant) (k : Secret) (l : Lanes) (m : List Byte) : Nat → Lanes
  | 0 => l
  | j + 1 =>
    let p := lanesAfter v k l m j
    let o := 48 * j
    ⟨mix v (le64 m o ^^^ k.w1) (le64 m (o + 8) ^^^ p.s0), mix v (le64 m (o + 16) ^^^ k.w2) (le64 m (o + 24) ^^^ p.s1),
      mix v (le64 m (o + 32) ^^^ k.w3) (le64 m (o + 40) ^^^ p.s2)⟩

/-- The running seed after `j` rounds from byte `o` of `m` (R159), a round being `mix(w0 ^ K1, w1 ^ s)` (R158). -/
def seedAfter (v : Variant) (k : Secret) (s : Word) (m : List Byte) (o : Nat) : Nat → Word
  | 0 => s
  | j + 1 => mix v (le64 m (o + 16 * j) ^^^ k.w1) (le64 m (o + 16 * j + 8) ^^^ seedAfter v k s m o j)

/-- `Hash_v(K, W, m)` with its loops replaced by their counts: "the number of blocks is `(n-1) div 48` and the
remainder is `i = n - 48*((n-1) div 48)`" (R161), the merge `s0 ^ s1 ^ s2` when there was a block, `(i-1) div 16` rounds
on the remainder (R159), the window at the message's end (R162), and the epilogue
`mix(a2 ^ K0 ^ len, b2 ^ K1)` of `(a2, b2) = mum(a ^ K1, b ^ s)` (R163). -/
def hashByCounts (v : Variant) (k : Secret) (w : Word) (m : List Byte) : Word :=
  let n := m.length
  let digest := fun a b s : Word =>
    mix v ((mum v (a ^^^ k.w1) (b ^^^ s)).1 ^^^ k.w0 ^^^ BitVec.ofNat 64 n) ((mum v (a ^^^ k.w1) (b ^^^ s)).2 ^^^ k.w1)
  if n ≤ 16 then digest (shortAB m).1 (shortAB m).2 w
  else
    let q := (n - 1) / 48
    let l := lanesAfter v k ⟨w, w, w⟩ m q
    let s := if q = 0 then w else l.s0 ^^^ l.s1 ^^^ l.s2
    digest (le64 m (n - 16)) (le64 m (n - 8)) (seedAfter v k s m (48 * q) ((tailLength n - 1) / 16))

/-! ### The message a stream stands for -/

/-- The stream invariant (R190): the stream context `st`, opened at the working seed `w`, stands for the bytes `m`. -/
structure StreamOf (v : Variant) (k : Secret) (w : Word) (m : List Byte) (st : StreamCtx) : Prop where
  total : st.tlen.toNat = m.length
  offset : st.off.toNat = tailLength m.length
  lanes : st.lanes = lanesAfter v k (Lanes.all w) m ((m.length - 1) / 48)
  tail : st.buf.toList.take st.off.toNat = m.drop (48 * ((m.length - 1) / 48))
  reach : m.length > 48 → st.off.toNat < 16 →
    st.buf.toList.drop (32 + st.off.toNat) = (m.drop (m.length - 16)).take (16 - st.off.toNat)

/-- The machine's open stream stands for `m`. -/
def StreamHolds (s : State) (m : List Byte) : Prop :=
  s.flags.svalid = true → StreamOf s.ctx.var s.ctx.k s.ctx.seed m s.stream

/-- The message of the open stream after the next step: a completed SOPEN starts an empty one, a completed WRITE
appends its chunk (R181, R182). -/
def messageAfter (s : State) (m : List Byte) : List Byte :=
  match commandOf s with
  | some .sopen => if s.flags.initd then [] else m
  | some .write => if s.flags.svalid && chunkInRange s && lengthFits s then m ++ chunk s else m
  | _ => m

/-- Two stream contexts that agree on everything but the dead bytes of BUF (R44). -/
structure SameLive (a b : StreamCtx) : Prop where
  lanes : a.lanes = b.lanes
  off : a.off = b.off
  tlen : a.tlen = b.tlen
  tail : a.buf.toList.take a.off.toNat = b.buf.toList.take b.off.toNat
  reach : a.tlen.toNat > 48 → a.off.toNat < 16 →
    a.buf.toList.drop (32 + a.off.toNat) = b.buf.toList.drop (32 + b.off.toNat)

/-! ### Checked reads -/

/-- `LE64(m, o)` where it is defined: "requires ≥8 bytes available from offset" (R65). -/
def checkedLe64 (m : List Byte) (o : Nat) : Option Word := if o + 8 ≤ m.length then some (le64 m o) else none

/-- `LE32(m, o)` where it is defined: "requires ≥4" (R65). -/
def checkedLe32 (m : List Byte) (o : Nat) : Option (BitVec 32) := if o + 4 ≤ m.length then some (le32 m o) else none

/-- `m[i]` where there is such a byte. -/
def checkedByte (m : List Byte) (i : Nat) : Option Word := if i < m.length then some (byteAt m i) else none

/-- `ShortAB` with every read checked. -/
def checkedShortAB (m : List Byte) : Option (Word × Word) :=
  let n := m.length
  if n = 0 then some (0, 0)
  else if n ≤ 3 then do
    let first ← checkedByte m 0
    let mid ← checkedByte m (n / 2)
    let last ← checkedByte m (n - 1)
    some ((first <<< 16) ||| (mid <<< 8) ||| last, 0)
  else if n ≤ 7 then do
    let u ← checkedLe32 m 0
    let w ← checkedLe32 m (n - 4)
    some (doubled u, doubled w)
  else do
    let x ← checkedLe64 m 0
    let y ← checkedLe64 m (n - 8)
    some (rot32 x, y)

/-- `Block48` with every read checked. -/
def checkedBlock (v : Variant) (k : Secret) (l : Lanes) (blk : List Byte) : Option Lanes := do
  let w0 ← checkedLe64 blk 0
  let w1 ← checkedLe64 blk 8
  let w2 ← checkedLe64 blk 16
  let w3 ← checkedLe64 blk 24
  let w4 ← checkedLe64 blk 32
  let w5 ← checkedLe64 blk 40
  some ⟨mix v (w0 ^^^ k.w1) (w1 ^^^ l.s0), mix v (w2 ^^^ k.w2) (w3 ^^^ l.s1), mix v (w4 ^^^ k.w3) (w5 ^^^ l.s2)⟩

/-- The block loop with every read checked. -/
def checkedBlockLoop (v : Variant) (k : Secret) : Nat → Lanes → List Byte → Option (Lanes × List Byte)
  | 0, l, m => some (l, m)
  | fuel + 1, l, m =>
    if m.length > 48 then do
      let l' ← checkedBlock v k l (m.take 48)
      checkedBlockLoop v k fuel l' (m.drop 48)
    else some (l, m)

/-- The round loop with every read checked. -/
def checkedRoundLoop (v : Variant) (k : Secret) : Nat → Word → List Byte → Option Word
  | 0, s, _ => some s
  | fuel + 1, s, m =>
    if m.length > 16 then do
      let w0 ← checkedLe64 m 0
      let w1 ← checkedLe64 m 8
      checkedRoundLoop v k fuel (round16 v k s w0 w1) (m.drop 16)
    else some s

/-- `Hash_v(K, W, m)` with every read checked: `none` if any read left the message. -/
def checkedHash (v : Variant) (k : Secret) (w : Word) (m : List Byte) : Option Word :=
  let n := m.length
  if n ≤ 16 then do
    let ab ← checkedShortAB m
    some (epilogue v k w ab.1 ab.2 (BitVec.ofNat 64 n))
  else do
    let r ← if n > 48 then (checkedBlockLoop v k n (Lanes.all w) m).map fun r => (r.1.merge, r.2) else some (w, m)
    let s ← checkedRoundLoop v k r.2.length r.1 r.2
    let a ← checkedLe64 m (n - 16)
    let b ← checkedLe64 m (n - 8)
    some (epilogue v k s a b (BitVec.ofNat 64 n))

/-- FINISH's digest with every read of the buffer and of the rebuilt window checked. -/
def checkedFinish (v : Variant) (k : Secret) (st : StreamCtx) : Option Word :=
  let buf := st.buf.toList
  if st.tlen.toNat ≤ 16 then do
    let ab ← checkedShortAB (buf.take st.tlen.toNat)
    some (epilogue v k (finishSeed st) ab.1 ab.2 st.tlen)
  else do
    let w0 ← checkedLe64 buf 0
    let w1 ← checkedLe64 buf 8
    let w2 ← checkedLe64 buf 16
    let w3 ← checkedLe64 buf 24
    let s := finishSeed st
    let s := if st.off.toNat > 16 then round16 v k s w0 w1 else s
    let s := if st.off.toNat > 32 then round16 v k s w2 w3 else s
    let a ← checkedLe64 (finishWindow st) 0
    let b ← checkedLe64 (finishWindow st) 8
    some (epilogue v k s a b st.tlen)

/-! ### States no host can tell apart -/

/-- `s` and `t` differ only in registers that nothing has written (R42, R262): the engine context where INITD (and
SVALID) is 0, the stream context where SVALID is 0, the sequencer registers where no GENSEC runs, and GK outside the
phase that compares. -/
structure SameWritten (s t : State) : Prop where
  flags : s.flags = t.flags
  ops : s.ops = t.ops
  res : s.res = t.res
  msg : s.msg = t.msg
  params : s.params = t.params
  port : s.port = t.port
  ctx : s.flags.initd = true ∨ s.flags.svalid = true → s.ctx = t.ctx
  stream : s.flags.svalid = true → s.stream = t.stream
  gph : s.seq.gph = t.seq.gph
  seq : s.seq.gph ≠ .idle → s.seq.g = t.seq.g ∧ s.seq.cand = t.seq.cand ∧ s.seq.gi = t.seq.gi ∧
    s.seq.gj = t.seq.gj ∧ s.seq.gvar = t.seq.gvar
  gk : s.seq.gph = .ham → s.seq.gk = t.seq.gk

/-- Two outcomes of the same kind: next states related by `R`, or the same reason to stop. -/
def OutcomeRel (R : State → State → Prop) (a b : Result) : Prop :=
  match a, b with
  | .next s, .next t => R s t
  | .fault x, .fault y => x = y
  | .refused x, .refused y => x = y
  | _, _ => False

/-- The reset state with other values in the registers the spec leaves unspecified there (R42). -/
def resetWith (c : EngineCtx) (st : StreamCtx) (q : Sequencer) : State :=
  { State.reset with ctx := c, stream := st, seq := { q with gph := .idle } }

/-- Everything a host can have learnt from `s`: what its completed reads have answered. -/
def learnt (o : Result) : Option (List Word) :=
  match o with
  | .next s => some s.port.replies
  | .fault _ => none
  | .refused _ => none

end Sys2Proof.Machine
end

