-- ==== Sys2Proof/Certificates/Slice0/Obligations.lean ====
section
/-! DEFINITION. The statements about the machine, for the provers. Each docstring names the rules of spec/ it formalises. -/

open Sys2Proof Sys2Proof.Machine

/-! ### The command word -/

/-- R99, R100: the decoder answers a command exactly on that command's own word, so every encoding is read back whole
and no other value is taken for it. -/
def Obligations.DecodeAnswersExactlyTheEncodedWord : Prop :=
  ∀ (w : Word) (i : Instr), decode w = .command i ↔ w = cmdValue i

/-- R95: the legal command words are exactly the 28 listed, all different. -/
def Obligations.LegalCommandWordsAreTheListed28 : Prop :=
  legalWords.length = 28 ∧ legalWords.Nodup ∧
  ∀ w : Word, (∃ i, decode w = .command i) ↔ ∃ l ∈ legalWords, w = l.setWidth 64

/-- R95: a value selects a row of the opcode map, by match and mask over a zero high half, exactly when it decodes to a
command of that row; so no value selects two rows. -/
def Obligations.OpcodeRowSelectsItsCommands : Prop :=
  ∀ (w : Word) (r : OpcodeRow), r ∈ opcodeRows →
    (r.selects w = true ↔ ∃ i, decode w = .command i ∧ i.row = r.mnemonic)

/-- R109: the worked encodings decode to the commands they are written for, and the illegal examples to none. -/
def Obligations.WorkedEncodingsDecode : Prop :=
  decode 0x00000001 = .command (.mum .w64) ∧ decode 0x00000301 = .command (.mum .w32c) ∧
  decode 0x00000102 = .command (.mix .w64c) ∧ decode 0x00000010 = .command (.initD .w64) ∧
  decode 0x00000610 = .command (.initS .w32) ∧ decode 0x00000910 = .command (.initG .w64c) ∧
  decode 0x00000011 = .command .hash ∧ decode 0x00000020 = .command .sopen ∧
  decode 0x00000021 = .command .write ∧ decode 0x00000022 = .command .finish ∧
  decode 0x00000030 = .command (.gensec .w64) ∧ decode 0x00000330 = .command (.gensec .w32c) ∧
  (∀ w ∈ ([0x00000000, 0x00000111, 0x00000C10, 0x00000420, 0x00001001, 0x0000000100000001, 0x00000003] : List Word),
    ∀ i, decode w ≠ .command i)

/-! ### The step -/

/-- R27, R238: a value written to CMD that decodes to a command, offered with BUSY = 0, FAULT = 0 and nothing held, is
executed by the next step; so is the oldest held one when the host is quiet. Around the meaning the step only takes
the access off the port and closes the last command's STATUS window. -/
def Obligations.StepExecutesTheDecodedCommand : Prop :=
  ∀ (s : State) (w : Word) (i : Instr) (rest : List HostEvent) (later : List HostAccess),
    decode w = .command i → s.flags.busy = false → s.flags.fault = false →
    (s.port.events = .access (.regWrite 0 w) :: rest → s.port.held = [] →
      step s = exec i { s with port := { s.port with events := rest, during := none } }) ∧
    (s.port.events = [] → s.port.held = .regWrite 0 w :: later →
      step s = exec i { s with port := { s.port with held := later, during := none } }) ∧
    (s.port.events = .quiet :: rest → s.port.held = .regWrite 0 w :: later →
      step s = exec i { s with port := { s.port with events := rest, held := later, during := none } })

/-- Log entry 13 (the model's choice of where an instruction stands): with the instruction's bits placed by
`withFetchWord`, the very next step of an idle, unfaulted engine executes it. -/
def Obligations.StepExecutesTheFetchWord : Prop :=
  ∀ (s : State) (nbits w : Nat) (i : Instr),
    decodeTableWord nbits w = some i → s.flags.busy = false → s.flags.fault = false → s.port.held = [] →
    step (s.withFetchWord nbits w) = exec i { s with port := { s.port with during := none } }

/-- R232, R236: a value that is no command, offered to an idle unfaulted engine, faults with ILLEGAL_CMD, records the
whole 64-bit value in ERRINFO and changes nothing else. -/
def Obligations.IllegalValueFaults : Prop :=
  ∀ (s : State) (w : Word) (rest : List HostEvent),
    (∀ i, decode w ≠ .command i) → s.flags.busy = false → s.flags.fault = false → s.port.held = [] →
    s.port.events = .access (.regWrite 0 w) :: rest →
    ∃ t, step s = .next t ∧ FaultedWith .illegalCmd w (s.setEvents rest) t

/-- R237: while FAULT = 1 every value written to CMD, legal or not, is refused: the access completes and no register
changes. -/
def Obligations.FaultedEngineRefusesCommands : Prop :=
  ∀ (s : State) (w : Word) (rest : List HostEvent),
    s.flags.fault = true → s.flags.busy = false → s.port.held = [] →
    s.port.events = .access (.regWrite 0 w) :: rest →
    step s = .next { s with port := { s.port with events := rest, during := none } }

/-- R75: while BUSY = 1 every access but a STATUS read is held and has no effect. -/
def Obligations.BusyEngineHoldsAccesses : Prop :=
  ∀ (s : State) (a : HostAccess) (rest : List HostEvent),
    s.flags.busy = true → a ≠ .regRead 1 → s.port.events = .access a :: rest →
    step s = .next { s with port := { s.port with events := rest, held := s.port.held ++ [a] } }

/-- R28, R75: a STATUS read always completes, whatever is held, and changes no register; while BUSY = 1 it returns the
view latched when the running command started, and keeps it for the next one; otherwise it returns the flags. -/
def Obligations.StatusReadAlwaysCompletes : Prop :=
  ∀ (s : State) (rest : List HostEvent),
    s.port.events = .access (.regRead 1) :: rest →
    ∃ t x, step s = .next t ∧ t.port.replies = x :: s.port.replies ∧ t.port.events = rest ∧
      t.port.held = s.port.held ∧ t.flags = s.flags ∧ t.ctx = s.ctx ∧ t.stream = s.stream ∧ t.ops = s.ops ∧
      t.res = s.res ∧ t.seq = s.seq ∧ t.params = s.params ∧ MemoryUnchanged s t ∧
      (s.flags.busy = false → x = statusWord s) ∧
      (∀ y, s.flags.busy = true → s.port.during = some y → x = y) ∧
      (s.flags.busy = true → t.port.during = s.port.during)

/-- R75, R20, R103: with the host quiet, an idle engine completes the oldest held access, in the order they were issued,
and with nothing held does nothing; an access other than a STATUS read that arrives while earlier ones are held waits
behind them (log entry 9). A host that runs a program issues its next access, a STATUS read too, only when none is held:
until then its turn is the engine's, and never is more than one access held. -/
def Obligations.HeldAccessesCompleteInOrder : Prop :=
  (∀ (s : State), s.flags.busy = false →
    (s.port.events = [] → s.port.held = [] → step s = .next s) ∧
    (∀ rest, s.port.events = .quiet :: rest → s.port.held = [] →
      step s = .next { s with port := { s.port with events := rest } }) ∧
    (∀ a later, s.port.events = [] → s.port.held = a :: later →
      step s = serve a { s with port := { s.port with held := later } }) ∧
    (∀ a later rest, s.port.events = .quiet :: rest → s.port.held = a :: later →
      step s = serve a { s with port := { s.port with events := rest, held := later } }) ∧
    (∀ a rest, s.port.events = .access a :: rest → a ≠ .regRead 1 → s.port.held ≠ [] →
      step s = .next { s with port := { s.port with events := rest, held := s.port.held ++ [a] } })) ∧
  (∀ (h : HostRun) (t : Turn),
    (h.engine.port.held ≠ [] → h.turn .issue = h.turn .wait) ∧
    (∀ h', h.turn t = .next h' → h'.lines ≠ h.lines →
      h.engine.port.held = [] ∧ t = .issue ∧ ∃ d, h.lines = d :: h'.lines) ∧
    (∀ h', h.turn t = .next h' → h.engine.port.held.length ≤ 1 → h'.engine.port.held.length ≤ 1))

/-- R28 (a STATUS read that lands while a command executes; the event is the model's, log entry 6): after the step that
ran a command from `s`, such a read sees BUSY = 1 and the other fields as they stood in `s`. -/
def Obligations.StatusReadDuringCommandShowsOldFlags : Prop :=
  ∀ (i : Instr) (s t u : State) (rest : List HostEvent),
    exec i s = .next t → t.flags.fault = false → t.port.events = .statusDuring :: rest → step t = .next u →
    u.port.replies = (statusWord s ||| 1) :: t.port.replies ∧ u.flags = t.flags ∧ u.res = t.res ∧ u.stream = t.stream

/-! ### Reset -/

/-- R42, R261: the values the spec states for reset. (The registers it leaves unspecified are not mentioned.) -/
def Obligations.ResetLeavesTheStatedValues : Prop :=
  State.reset.flags = ⟨false, false, false, false, false, .noError⟩ ∧ statusWord State.reset = 0 ∧
  State.reset.ops = ⟨0, ⟨0, 0, 0, 0⟩, 0, 0, 0, 0⟩ ∧ State.reset.res = ⟨0, 0, 0, ⟨0, 0, 0, 0⟩, 0⟩ ∧
  State.reset.seq.gph = .idle

/-- R260: a reset takes effect in any state, also while a command runs or the engine is faulted: the stated values, and
the message memory unchanged. -/
def Obligations.ResetTakesEffectInAnyState : Prop :=
  ∀ (s : State) (rest : List HostEvent), s.port.events = .reset :: rest →
    ∃ t, step s = .next t ∧ t.flags = ⟨false, false, false, false, false, .noError⟩ ∧
      t.ops = ⟨0, ⟨0, 0, 0, 0⟩, 0, 0, 0, 0⟩ ∧ t.res = ⟨0, 0, 0, ⟨0, 0, 0, 0⟩, 0⟩ ∧ t.seq.gph = .idle ∧
      MemoryUnchanged s t ∧ t.port.events = rest

/-! ### The multiply-mix primitive -/

/-- R121: W64 returns the low and the high half of the exact product. -/
def Obligations.MumW64IsTheExactProduct : Prop :=
  ∀ a b : Word, 2 ^ 64 * (mum .w64 a b).2.toNat + (mum .w64 a b).1.toNat = a.toNat * b.toNat

/-- R123: W32 combines the four exact 32×32 products, the first letter naming the half of `a`; `rot32` swaps halves. -/
def Obligations.MumW32CombinesFourProducts : Prop :=
  ∀ a b : Word,
    let ah := a.toNat / 2 ^ 32
    let al := a.toNat % 2 ^ 32
    let bh := b.toNat / 2 ^ 32
    let bl := b.toNat % 2 ^ 32
    let swap := fun x : Nat => 2 ^ 32 * (x % 2 ^ 32) + x / 2 ^ 32
    (mum .w32 a b).1.toNat = (swap (ah * bl)) ^^^ (ah * bh) ∧
    (mum .w32 a b).2.toNat = (swap (al * bh)) ^^^ (al * bl)

/-- R122, R124: the condom variants exclusive-or the operands into the pair: `a` with the low half of the exact product
and `b` with the high half; `a` and `b` with the elements of the W32 pair. -/
def Obligations.CondomVariantsFeedBackTheOperands : Prop :=
  ∀ a b : Word,
    (mum .w64c a b).1.toNat = a.toNat ^^^ (a.toNat * b.toNat % 2 ^ 64) ∧
    (mum .w64c a b).2.toNat = b.toNat ^^^ (a.toNat * b.toNat / 2 ^ 64) ∧
    mum .w32c a b = (a ^^^ (mum .w32 a b).1, b ^^^ (mum .w32 a b).2)

/-- R125: the mix of a zero operand is 0 in the base variants and the other operand in the condom ones, on either side. -/
def Obligations.MixOfZeroOperand : Prop :=
  ∀ b : Word,
    mix .w64 0 b = 0 ∧ mix .w32 0 b = 0 ∧ mix .w64c 0 b = b ∧ mix .w32c 0 b = b ∧
    mix .w64 b 0 = 0 ∧ mix .w32 b 0 = 0 ∧ mix .w64c b 0 = b ∧ mix .w32c b 0 = b

/-- The mix is symmetric in all four variants, though the pair is not (spec/95_test_vectors.md section 3.1). -/
def Obligations.MixIsSymmetric : Prop := ∀ (v : Variant) (a b : Word), mix v a b = mix v b a

/-- R127: MUM always completes, writes the pair to RES0 and RES1 and nothing else; no INIT is needed. -/
def Obligations.MumWritesThePair : Prop :=
  ∀ (v : Variant) (s : State), ∃ t, exec (.mum v) s = .next t ∧
    (t.res.res0, t.res.res1) = mum v s.ops.opA s.ops.opB ∧
    t.res.digest = s.res.digest ∧ t.res.gsec = s.res.gsec ∧ t.res.errInfo = s.res.errInfo ∧
    t.ctx = s.ctx ∧ t.stream = s.stream ∧ t.flags = s.flags ∧ t.ops = s.ops ∧ t.seq = s.seq ∧
    t.params = s.params ∧ MemoryUnchanged s t ∧ RanFrom s t

/-- R128: MIX always completes, writes RES0 and nothing else; RES1 is left unchanged. -/
def Obligations.MixWritesRes0Only : Prop :=
  ∀ (v : Variant) (s : State), ∃ t, exec (.mix v) s = .next t ∧
    t.res.res0 = (mum v s.ops.opA s.ops.opB).1 ^^^ (mum v s.ops.opA s.ops.opB).2 ∧ t.res.res1 = s.res.res1 ∧
    t.res.digest = s.res.digest ∧ t.res.gsec = s.res.gsec ∧ t.res.errInfo = s.res.errInfo ∧
    t.ctx = s.ctx ∧ t.stream = s.stream ∧ t.flags = s.flags ∧ t.ops = s.ops ∧ t.seq = s.seq ∧
    t.params = s.params ∧ MemoryUnchanged s t ∧ RanFrom s t

/-! ### Engine construction -/

/-- R140, R142, R143: INIT.D completes in every state: the default secret, the raw seed transformed once, INITD set,
SVALID cleared; nothing else changes. -/
def Obligations.InitDefaultBuildsTheContext : Prop :=
  ∀ (v : Variant) (s : State), ∃ t, exec (.initD v) s = .next t ∧
    t.ctx.var = v ∧
    t.ctx.k = ⟨0xa0761d6478bd642f, 0xe7037ed1a0b428db, 0x8ebc6af09c88c6e3, 0x589965cc75374cc3⟩ ∧
    t.ctx.seed = s.ops.seedIn ^^^ mix v (s.ops.seedIn ^^^ 0xa0761d6478bd642f) 0xe7037ed1a0b428db ∧
    t.flags = { s.flags with initd := true, svalid := false } ∧
    t.stream = s.stream ∧ t.ops = s.ops ∧ t.res = s.res ∧ t.seq = s.seq ∧ t.params = s.params ∧
    MemoryUnchanged s t ∧ RanFrom s t

/-- R140, R142, R144: INIT.S completes in every state, with the secret in SEC_IN unchecked. -/
def Obligations.InitSuppliedBuildsTheContext : Prop :=
  ∀ (v : Variant) (s : State), ∃ t, exec (.initS v) s = .next t ∧
    t.ctx.var = v ∧ t.ctx.k = s.ops.secIn ∧
    t.ctx.seed = s.ops.seedIn ^^^ mix v (s.ops.seedIn ^^^ s.ops.secIn.w0) s.ops.secIn.w1 ∧
    t.flags = { s.flags with initd := true, svalid := false } ∧
    t.stream = s.stream ∧ t.ops = s.ops ∧ t.res = s.res ∧ t.seq = s.seq ∧ t.params = s.params ∧
    MemoryUnchanged s t ∧ RanFrom s t

/-- R140, R142, R145: INIT.G completes where GVALID = 1, with the secret in GSEC. -/
def Obligations.InitGeneratedBuildsTheContext : Prop :=
  ∀ (v : Variant) (s : State), s.flags.gvalid = true → ∃ t, exec (.initG v) s = .next t ∧
    t.ctx.var = v ∧ t.ctx.k = s.res.gsec ∧
    t.ctx.seed = s.ops.seedIn ^^^ mix v (s.ops.seedIn ^^^ s.res.gsec.w0) s.res.gsec.w1 ∧
    t.flags = { s.flags with initd := true, svalid := false } ∧
    t.stream = s.stream ∧ t.ops = s.ops ∧ t.res = s.res ∧ t.seq = s.seq ∧ t.params = s.params ∧
    MemoryUnchanged s t ∧ RanFrom s t

/-! ### The one-shot hash -/

/-- R150: HASH completes where INITD = 1 and the chunk lies inside the message memory, zero length included; it writes
DIGEST and nothing else. -/
def Obligations.HashWritesTheDigest : Prop :=
  ∀ s : State, s.flags.initd = true → s.ops.ptr.toNat + s.ops.len.toNat ≤ s.params.msgBytes →
    ∃ t, exec .hash s = .next t ∧
      t.res = { s.res with
        digest := hashV s.ctx.var s.ctx.k s.ctx.seed
          ((List.range s.ops.len.toNat).map fun i => s.msg.read (s.ops.ptr.toNat + i)) } ∧
      t.ctx = s.ctx ∧ t.stream = s.stream ∧ t.flags = s.flags ∧ t.ops = s.ops ∧ t.seq = s.seq ∧
      t.params = s.params ∧ MemoryUnchanged s t ∧ RanFrom s t

/-- R152 to R156, R163: the short regimes, each on its own bytes: nothing for 0; first, middle and last byte for 1 to 3;
the first and last four bytes doubled for 4 to 7; the first eight with halves swapped and the last eight for 8 to 16.
The running seed is the working seed unchanged. -/
def Obligations.ShortRegimes : Prop :=
  ∀ (v : Variant) (k : Secret) (w : Word) (m : List Byte),
    let ep := fun a b : Word =>
      mix v ((mum v (a ^^^ k.w1) (b ^^^ w)).1 ^^^ k.w0 ^^^ BitVec.ofNat 64 m.length)
        ((mum v (a ^^^ k.w1) (b ^^^ w)).2 ^^^ k.w1)
    let le := fun bs : List Byte => BitVec.ofNat 64 (leNat bs)
    (m = [] → hashV v k w m = ep 0 0) ∧
    (∀ x, m = [x] → hashV v k w m = ep (le [x, x, x]) 0) ∧
    (∀ x y, m = [x, y] → hashV v k w m = ep (le [y, y, x]) 0) ∧
    (∀ x y z, m = [x, y, z] → hashV v k w m = ep (le [z, y, x]) 0) ∧
    (∀ p q r : List Byte, p.length = 4 → r.length = 4 →
      (m = p ++ q ∧ q.length ≤ 3 ∧ m.drop (m.length - 4) = r) →
      hashV v k w m = ep (le (p ++ p)) (le (r ++ r))) ∧
    (∀ p p' q r : List Byte, p.length = 4 → p'.length = 4 → r.length = 8 →
      (m = p ++ p' ++ q ∧ q.length ≤ 8 ∧ m.drop (m.length - 8) = r) →
      hashV v k w m = ep (le (p' ++ p)) (le r))

/-- R157 to R162, R164: the hash's loops run exactly `(n-1) div 48` blocks and then `(i-1) div 16` rounds on the
remainder, for a message of any length and any content. -/
def Obligations.HashCountsBlocksAndRounds : Prop :=
  ∀ (v : Variant) (k : Secret) (w : Word) (m : List Byte), hashV v k w m = hashByCounts v k w m

/-- R82: no read of the hash or of FINISH leaves its bytes: with every read checked the same digest comes out. (FINISH
for a buffer offset that occurs, and TLEN bytes present in the short regimes.) -/
def Obligations.EveryReadIsInRange : Prop :=
  (∀ (v : Variant) (k : Secret) (w : Word) (m : List Byte), checkedHash v k w m = some (hashV v k w m)) ∧
  (∀ (v : Variant) (k : Secret) (st : StreamCtx), st.off.toNat ≤ 48 →
    checkedFinish v k st = some (streamFinish v k st))

/-! ### The streaming hasher -/

/-- R181: SOPEN completes where INITD = 1: the working seed in all three lanes, an all-zero buffer, OFF and TLEN zero,
SVALID set, STATUS.SPH Empty; nothing else changes. -/
def Obligations.SopenStartsAnEmptyStream : Prop :=
  ∀ s : State, s.flags.initd = true → ∃ t, exec .sopen s = .next t ∧
    t.stream.lanes = ⟨s.ctx.seed, s.ctx.seed, s.ctx.seed⟩ ∧ (∀ i (h : i < 48), t.stream.buf[i] = 0) ∧
    t.stream.off = 0 ∧ t.stream.tlen = 0 ∧ t.flags = { s.flags with svalid := true } ∧ streamPhase t = 1 ∧
    t.ctx = s.ctx ∧ t.ops = s.ops ∧ t.res = s.res ∧ t.seq = s.seq ∧ t.params = s.params ∧
    MemoryUnchanged s t ∧ RanFrom s t

/-- R182: WRITE completes where SVALID = 1, the chunk lies inside the message memory and the total length fits its
counter; it changes the stream context and nothing else, and adds LEN to TLEN. -/
def Obligations.WriteChangesOnlyTheStream : Prop :=
  ∀ s : State, s.flags.svalid = true → s.ops.ptr.toNat + s.ops.len.toNat ≤ s.params.msgBytes →
    s.stream.tlen.toNat + s.ops.len.toNat ≤ 2 ^ 64 - 1 →
    ∃ t, exec .write s = .next t ∧
      t.stream = streamWrite s.ctx.var s.ctx.k s.stream
        ((List.range s.ops.len.toNat).map fun i => s.msg.read (s.ops.ptr.toNat + i)) ∧
      t.stream.tlen.toNat = s.stream.tlen.toNat + s.ops.len.toNat ∧
      t.flags = s.flags ∧ t.ctx = s.ctx ∧ t.ops = s.ops ∧ t.res = s.res ∧ t.seq = s.seq ∧
      t.params = s.params ∧ MemoryUnchanged s t ∧ RanFrom s t

/-- R183: a chunk that fits, `OFF + n <= 48`, is appended: its bytes at `BUF[OFF + i]`, every other byte, and the lanes,
unchanged. -/
def Obligations.FittingChunkIsAppended : Prop :=
  ∀ (v : Variant) (k : Secret) (st : StreamCtx) (c : List Byte), st.off.toNat + c.length ≤ 48 →
    let st' := streamWrite v k st c
    st'.lanes = st.lanes ∧ st'.off.toNat = st.off.toNat + c.length ∧
    st'.tlen = st.tlen + BitVec.ofNat 64 c.length ∧
    (∀ i (h : i < 48), st.off.toNat ≤ i → i < st.off.toNat + c.length → st'.buf[i] = c.getD (i - st.off.toNat) 0) ∧
    (∀ i (h : i < 48), i < st.off.toNat ∨ st.off.toNat + c.length ≤ i → st'.buf[i] = st.buf[i])

/-- R183: "a zero-length WRITE is a no-op on the stream context, whatever OFF is". -/
def Obligations.EmptyChunkChangesNothing : Prop :=
  ∀ (v : Variant) (k : Secret) (st : StreamCtx), st.off.toNat ≤ 48 → streamWrite v k st [] = st

/-- R184, R186: a chunk that overflows the buffer, from `OFF = f`: `(f + n - 1) div 48` blocks of "the bytes in the buffer,
then the chunk" are folded, the 1 to 48 bytes left over are the new tail, and the 16 bytes before the tail are in
BUF where the tail is shorter than 16. -/
def Obligations.OverflowingChunkIsFolded : Prop :=
  ∀ (v : Variant) (k : Secret) (st : StreamCtx) (c : List Byte),
    st.off.toNat ≤ 48 → 48 < st.off.toNat + c.length →
    let st' := streamWrite v k st c
    let m := st.buf.toList.take st.off.toNat ++ c
    let q := (st.off.toNat + c.length - 1) / 48
    st'.lanes = lanesAfter v k st.lanes m q ∧ st'.off.toNat = st.off.toNat + c.length - 48 * q ∧
    1 ≤ st'.off.toNat ∧ st'.off.toNat ≤ 48 ∧
    st'.tlen = st.tlen + BitVec.ofNat 64 c.length ∧
    st'.buf.toList.take st'.off.toNat = m.drop (48 * q) ∧
    (st'.off.toNat < 16 →
      st'.buf.toList.drop (32 + st'.off.toNat) = (m.drop (48 * q - (16 - st'.off.toNat))).take (16 - st'.off.toNat))

/-- R188: FINISH completes where SVALID = 1 and writes DIGEST only: the stream context is not changed. -/
def Obligations.FinishWritesTheDigest : Prop :=
  ∀ s : State, s.flags.svalid = true → ∃ t, exec .finish s = .next t ∧
    t.res = { s.res with digest := streamFinish s.ctx.var s.ctx.k s.stream } ∧
    t.ctx = s.ctx ∧ t.stream = s.stream ∧ t.flags = s.flags ∧ t.ops = s.ops ∧ t.seq = s.seq ∧
    t.params = s.params ∧ MemoryUnchanged s t ∧ RanFrom s t

/-- R192: a FINISH repeated at once writes the same DIGEST. -/
def Obligations.FinishIsIdempotent : Prop :=
  ∀ s t u : State, s.flags.svalid = true → exec .finish s = .next t → exec .finish t = .next u →
    u.res = t.res ∧ u.stream = s.stream ∧ u.ctx = s.ctx

/-- R190, for one WRITE: a stream that stands for `m` stands for `m ++ c` after the chunk `c`, whatever `m` and `c`. -/
def Obligations.WriteExtendsTheMessage : Prop :=
  ∀ (v : Variant) (k : Secret) (w : Word) (m c : List Byte) (st : StreamCtx),
    StreamOf v k w m st → m.length + c.length < 2 ^ 64 → StreamOf v k w (m ++ c) (streamWrite v k st c)

/-- R190, for the machine: in every state, if the open stream stands for `m`, then after any step it stands for the
message that step leaves (nothing after a SOPEN, the chunk appended after a WRITE, the same otherwise), whatever
commands and host accesses come between. -/
def Obligations.EveryStepKeepsTheStreamMessage : Prop :=
  ∀ (s t : State) (m : List Byte), StreamHolds s m → step s = .next t → StreamHolds t (messageAfter s m)

/-- R189, R191: a FINISH over a stream that stands for `m` writes the one-shot digest of `m` under the same context. -/
def Obligations.FinishEqualsTheOneShotHash : Prop :=
  ∀ (s : State) (m : List Byte), s.flags.svalid = true → StreamHolds s m →
    ∃ t, exec .finish s = .next t ∧ t.res.digest = hashV s.ctx.var s.ctx.k s.ctx.seed m

/-- R191, the source's critical invariant: for every message and every partition of it into chunks, empty chunks
included, the stream's digest is the one-shot digest of the whole. -/
def Obligations.StreamingEqualsOneShot : Prop :=
  ∀ (v : Variant) (k : Secret) (w : Word) (chunks : List (List Byte)), chunks.flatten.length < 2 ^ 64 →
    streamFinish v k (chunks.foldl (streamWrite v k) (emptyStream w)) = hashV v k w chunks.flatten

/-- R44: the dead bytes of BUF never change a digest: two stream contexts that agree on the live bytes give the same
FINISH, now and after any further chunks. -/
def Obligations.DeadBufferBytesDoNotMatter : Prop :=
  ∀ (v : Variant) (k : Secret) (a b : StreamCtx) (chunks : List (List Byte)), SameLive a b →
    a.off.toNat = tailLength a.tlen.toNat → a.tlen.toNat + chunks.flatten.length < 2 ^ 64 →
    streamFinish v k (chunks.foldl (streamWrite v k) a) = streamFinish v k (chunks.foldl (streamWrite v k) b)

/-! ### The secret generator -/

/-- R210, R216: GENSEC is accepted in every state and faults in none: GVALID cleared, BUSY set, the counter at SEED_IN,
no word accepted, the variant held; nothing else changes. -/
def Obligations.GensecStartsTheGenerator : Prop :=
  ∀ (v : Variant) (s : State), ∃ t, exec (.gensec v) s = .next t ∧
    t.flags = { s.flags with busy := true, gvalid := false } ∧
    t.seq.g = s.ops.seedIn ∧ t.seq.gi = 0 ∧ t.seq.gj = 0 ∧ t.seq.cand = 0 ∧ t.seq.gk = s.seq.gk ∧
    t.seq.gph = .draw ∧ t.seq.gvar = v ∧ t.ctx = s.ctx ∧ t.stream = s.stream ∧ t.ops = s.ops ∧ t.res = s.res ∧ t.params = s.params ∧
    MemoryUnchanged s t ∧ RanFrom s t

/-- R212, R216, R28: a step of the running generator, phase by phase, with the host quiet. The view a STATUS read shows
stays as it was latched until G_DONE. (That the registers G, CAND, GI, GJ, GK and the held variant keep their last values
after G_DONE is the model's choice, log entry 22: R38 gives them no defined value there.) -/
def Obligations.GeneratorPhases : Prop :=
  ∀ s : State, s.flags.busy = true → (s.port.events = [] ∨ ∃ rest, s.port.events = .quiet :: rest) →
    ∃ t, step s = .next t ∧
    t.port.events = s.port.events.tail ∧ (s.seq.gph ≠ .done → t.port.during = s.port.during) ∧
    t.ctx = s.ctx ∧ t.stream = s.stream ∧ t.ops = s.ops ∧ MemoryUnchanged s t ∧ t.params = s.params ∧
    t.port.held = s.port.held ∧ t.port.replies = s.port.replies ∧ t.seq.gvar = s.seq.gvar ∧
    (s.seq.gph ≠ .accept → t.res = s.res ∧ t.seq.gi = s.seq.gi) ∧ (s.seq.gph ≠ .done → t.flags = s.flags) ∧
    (s.seq.gph ≠ .draw → t.seq.g = s.seq.g) ∧
    (s.seq.gph = .draw →
      t.seq.g = s.seq.g + s.params.genInc ∧
      t.seq.cand = s.seq.cand |||
        ((s.params.genTable.toList.getD ((mix s.seq.gvar t.seq.g (t.seq.g ^^^ s.params.genXor)).toNat % 70) 0).setWidth 64
          <<< (8 * s.seq.gj.toNat)) ∧
      t.seq.gj = s.seq.gj + 1 ∧ t.seq.gk = s.seq.gk ∧ t.seq.gph = (if s.seq.gj + 1 = 8 then .odd else .draw)) ∧
    (s.seq.gph = .odd →
      (s.seq.cand.getLsbD 0 = false → t.seq.cand = 0 ∧ t.seq.gj = 0 ∧ t.seq.gk = s.seq.gk ∧ t.seq.gph = .draw) ∧
      (s.seq.cand.getLsbD 0 = true → t.seq.cand = s.seq.cand ∧ t.seq.gj = s.seq.gj ∧ t.seq.gk = 0 ∧ t.seq.gph = .ham)) ∧
    (s.seq.gph = .ham →
      (s.seq.gk.toNat = s.seq.gi.toNat → t.seq = { s.seq with gph := .accept }) ∧
      (s.seq.gk.toNat ≠ s.seq.gi.toNat → popcount (s.seq.cand ^^^ s.res.gsec.get s.seq.gk.toNat) ≠ 32 →
        t.seq = { s.seq with cand := 0, gj := 0, gph := .draw }) ∧
      (s.seq.gk.toNat ≠ s.seq.gi.toNat → popcount (s.seq.cand ^^^ s.res.gsec.get s.seq.gk.toNat) = 32 →
        t.seq = { s.seq with gk := s.seq.gk + 1 })) ∧
    (s.seq.gph = .accept →
      t.res = { s.res with gsec := s.res.gsec.set s.seq.gi.toNat s.seq.cand } ∧ t.seq.gi = s.seq.gi + 1 ∧
      t.seq.cand = 0 ∧ t.seq.gj = 0 ∧ t.seq.gk = s.seq.gk ∧
      t.seq.gph = (if s.seq.gi + 1 = 4 then .done else .draw)) ∧
    (s.seq.gph = .done →
      t.flags = { s.flags with busy := false, gvalid := true } ∧ t.seq = { s.seq with gph := .idle } ∧
      t.port.during = none)

/-- R216, R217: the state machine computes the function: if some number of candidates suffices for `GenSecret_v(seed)`,
then the GENSEC ends after some number of steps with exactly those words in GSEC and GVALID set, everything outside
the generator as it was; and if the GENSEC ends, its GSEC is the value of the function. -/
def Obligations.GensecComputesTheFunction : Prop :=
  ∀ (v : Variant) (s u : State), s.port.events = [] → s.port.held = [] → exec (.gensec v) s = .next u →
    (∀ fuel ws, genSecret s.params v fuel s.ops.seedIn = some ws →
      ∃ (n : Nat) (t : State), core.run n u = .next t ∧ t.flags = { s.flags with busy := false, gvalid := true } ∧
        t.res = { s.res with gsec := t.res.gsec } ∧ t.res.gsec.words = ws ∧ t.ctx = s.ctx ∧ t.stream = s.stream ∧
        t.ops = s.ops ∧ t.params = s.params ∧ t.port = { s.port with during := none } ∧ MemoryUnchanged s t) ∧
    (∀ (n : Nat) (t : State), core.run n u = .next t → t.flags.busy = false →
      ∃ fuel, genSecret s.params v fuel s.ops.seedIn = some t.res.gsec.words)

/-- R218: every result of the function is four odd words, every two of them at Hamming distance exactly 32, for every
choice of the parameters. -/
def Obligations.GeneratedSecretIsValid : Prop :=
  ∀ (p : Params) (v : Variant) (fuel : Nat) (seed : Word) (ws : List Word),
    genSecret p v fuel seed = some ws →
    ws.length = 4 ∧ (∀ w ∈ ws, w.getLsbD 0 = true) ∧ ws.Pairwise (fun a b => popcount (a ^^^ b) = 32)

/-- R219: with a table that has no odd entry a GENSEC never ends: BUSY stays 1 for every number of steps. -/
def Obligations.EvenTableHangsTheGenerator : Prop :=
  ∀ (v : Variant) (s u : State), s.port.events = [] → (∀ b ∈ s.params.genTable.toList, b.getLsbD 0 = false) →
    exec (.gensec v) s = .next u → ∀ n, ∃ t : State, core.run n u = .next t ∧ t.flags.busy = true

/-! ### Faults -/

/-- R231, R233, R236: HASH and SOPEN with INITD = 0, WRITE and FINISH with SVALID = 0, INIT.G with GVALID = 0 fault with
their codes, whatever the operands, and change nothing but the fault registers. -/
def Obligations.UseBeforeWriteFaults : Prop :=
  ∀ (s : State),
    (s.flags.initd = false → ∃ t, exec .hash s = .next t ∧ FaultedWith .noEngine 0x11 s t) ∧
    (s.flags.initd = false → ∃ t, exec .sopen s = .next t ∧ FaultedWith .noEngine 0x20 s t) ∧
    (s.flags.svalid = false → ∃ t, exec .write s = .next t ∧ FaultedWith .noStream 0x21 s t) ∧
    (s.flags.svalid = false → ∃ t, exec .finish s = .next t ∧ FaultedWith .noStream 0x22 s t) ∧
    (∀ v, s.flags.gvalid = false → ∃ t, exec (.initG v) s = .next t ∧ FaultedWith .noGsec (cmdValue (.initG v)) s t)

/-- R234, R235, R238: a chunk that leaves the message memory faults with BOUNDS, the sum taken in the integers, also when
the length would overflow; a WRITE in range whose total would not fit faults with LEN_OVERFLOW. -/
def Obligations.ChunkFaults : Prop :=
  ∀ (s : State),
    (s.flags.initd = true → s.params.msgBytes < s.ops.ptr.toNat + s.ops.len.toNat →
      ∃ t, exec .hash s = .next t ∧ FaultedWith .bounds 0x11 s t) ∧
    (s.flags.svalid = true → s.params.msgBytes < s.ops.ptr.toNat + s.ops.len.toNat →
      ∃ t, exec .write s = .next t ∧ FaultedWith .bounds 0x21 s t) ∧
    (s.flags.svalid = true → s.ops.ptr.toNat + s.ops.len.toNat ≤ s.params.msgBytes →
      2 ^ 64 - 1 < s.stream.tlen.toNat + s.ops.len.toNat →
      ∃ t, exec .write s = .next t ∧ FaultedWith .lenOverflow 0x21 s t)

/-- R237: nothing but reset clears a fault, and no second fault is recorded: any other step keeps FAULT, ERR and ERRINFO
and every result and context register of a faulted engine. -/
def Obligations.FaultIsStickyUntilReset : Prop :=
  ∀ s t : State, s.flags.fault = true → s.flags.busy = false → ¬ resetNext s → step s = .next t →
    t.flags = s.flags ∧ t.res = s.res ∧ t.ctx = s.ctx ∧ t.stream = s.stream ∧ t.seq = s.seq

/-! ### The host's side -/

/-- R28, R231, R96: the layout of STATUS, field by field, with the numbers of the fault codes and of the variants. -/
def Obligations.StatusLayout : Prop :=
  ∀ s : State,
    (statusWord s).getLsbD 0 = s.flags.busy ∧ (statusWord s).getLsbD 1 = s.flags.initd ∧
    (statusWord s).getLsbD 2 = s.flags.svalid ∧ (statusWord s).getLsbD 3 = s.flags.gvalid ∧
    (statusWord s).getLsbD 4 = s.flags.fault ∧
    (statusWord s).extractLsb' 5 2 =
      (if s.flags.svalid = false then 0 else if s.stream.tlen = 0 then 1 else 2) ∧
    (statusWord s).getLsbD 7 = false ∧
    (statusWord s).extractLsb' 8 4 =
      (match s.flags.err with
        | .noError => 0
        | .illegalCmd => 1
        | .noEngine => 2
        | .noStream => 3
        | .noGsec => 4
        | .bounds => 5
        | .lenOverflow => 6) ∧
    (statusWord s).extractLsb' 12 2 =
      (if s.flags.initd = false then 0
       else match s.ctx.var with
        | .w64 => 0
        | .w64c => 1
        | .w32 => 2
        | .w32c => 3) ∧
    (statusWord s).extractLsb' 14 50 = 0

/-- R26, R46, R72: a register read of an idle engine returns the register's value and changes no register; CMD and the
reserved numbers read 0. R103: the line `RD <reg> -> <name>` of a program is that read and binds the name to its value. -/
def Obligations.RegisterReads : Prop :=
  (∀ (s : State) (num : Nat) (rest : List HostEvent),
    s.flags.busy = false → s.port.held = [] → s.port.events = .access (.regRead num) :: rest →
    ∃ t x, step s = .next t ∧ t.port.replies = x :: s.port.replies ∧
      t.flags = s.flags ∧ t.ctx = s.ctx ∧ t.stream = s.stream ∧ t.ops = s.ops ∧ t.res = s.res ∧ t.seq = s.seq ∧
      MemoryUnchanged s t ∧
      x = ([0, statusWord s, s.res.errInfo, s.ops.seedIn, s.ops.secIn.w0, s.ops.secIn.w1, s.ops.secIn.w2,
        s.ops.secIn.w3, s.ops.ptr, s.ops.len, s.ops.opA, s.ops.opB, s.res.res0, s.res.res1, s.res.digest, 0,
        s.res.gsec.w0, s.res.gsec.w1, s.res.gsec.w2, s.res.gsec.w3].getD num 0)) ∧
  (∀ (h : HostRun) (r : HostReg) (n : String) (rest : List Directive),
    h.engine.flags.busy = false → h.engine.port.held = [] → h.lines = .rd r (some n) :: rest →
    ∃ s x, step (h.engine.setEvents (.access (.regRead r.num) :: h.engine.port.events)) = .next s ∧
      s.port.replies = x :: h.engine.port.replies ∧
      h.turn .issue = .next { engine := s, names := (n, x) :: h.names, waiting := none, lines := rest })

/-- R26, R46, R239: a register write of an idle engine other than to CMD, faulted or not, writes exactly the operand
register of that number; a read-only or reserved number is ignored, with no fault. R103: the line `WR <reg>, <name>` of
a program is the write of the value the name was bound to last. -/
def Obligations.RegisterWrites : Prop :=
  (∀ (s : State) (num : Nat) (x : Word) (rest : List HostEvent), num ≠ 0 →
    s.flags.busy = false → s.port.held = [] → s.port.events = .access (.regWrite num x) :: rest →
    ∃ t, step s = .next t ∧ t.flags = s.flags ∧ t.ctx = s.ctx ∧ t.stream = s.stream ∧ t.res = s.res ∧
      t.seq = s.seq ∧ MemoryUnchanged s t ∧
      t.ops.seedIn = (if num = 0x03 then x else s.ops.seedIn) ∧
      t.ops.secIn = ⟨if num = 0x04 then x else s.ops.secIn.w0, if num = 0x05 then x else s.ops.secIn.w1,
        if num = 0x06 then x else s.ops.secIn.w2, if num = 0x07 then x else s.ops.secIn.w3⟩ ∧
      t.ops.ptr = (if num = 0x08 then x else s.ops.ptr) ∧ t.ops.len = (if num = 0x09 then x else s.ops.len) ∧
      t.ops.opA = (if num = 0x0A then x else s.ops.opA) ∧ t.ops.opB = (if num = 0x0B then x else s.ops.opB)) ∧
  (∀ (h : HostRun) (r : HostReg) (n : String) (x : Word) (names : List (String × Word)) (rest : List Directive) (s : State),
    h.engine.port.held = [] → h.names = (n, x) :: names → h.lines = .wr r (.name n) :: rest →
    step (h.engine.setEvents (.access (.regWrite r.num x) :: h.engine.port.events)) = .next s →
    h.turn .issue = .next { engine := s, names := h.names, waiting := none, lines := rest })

/-- R62, R64: a host write of 1 to 8 bytes inside the message memory stores them little-endian, leaves every other byte
and every register, and reads back. -/
def Obligations.HostMemoryWrites : Prop :=
  ∀ (s : State) (a : Nat) (v : Word) (n : Nat) (rest : List HostEvent), s.msg.wf → 1 ≤ n → n ≤ 8 →
    a + n ≤ s.params.msgBytes → s.flags.busy = false → s.port.held = [] → s.port.events = .access (.memWrite a n v) :: rest →
    ∃ t, step s = .next t ∧
      (∀ i, i < n → (t.msg.read (a + i)).toNat = v.toNat / 256 ^ i % 256) ∧
      (∀ x, x < a ∨ a + n ≤ x → t.msg.read x = s.msg.read x) ∧
      (t.msg.readLE a n).toNat = v.toNat % 256 ^ n ∧
      t.flags = s.flags ∧ t.ctx = s.ctx ∧ t.stream = s.stream ∧ t.ops = s.ops ∧ t.res = s.res ∧ t.seq = s.seq

/-- R62, R64, R72: a host read of 1 to 8 bytes inside the message memory answers their little-endian value and changes
nothing. The stops are the model's (log entries 10 and 11): an access that leaves the memory faults, also at an address past
2^64-1, and a width outside 1 to 8 is refused. -/
def Obligations.HostMemoryReads : Prop :=
  ∀ (s : State) (a : Nat) (v : Word) (n : Nat) (rest : List HostEvent), s.flags.busy = false → s.port.held = [] →
    (1 ≤ n → n ≤ 8 → a + n ≤ s.params.msgBytes → s.port.events = .access (.memRead a n) :: rest →
      ∃ t x, step s = .next t ∧ t.port.replies = x :: s.port.replies ∧
        x.toNat = leNat ((List.range n).map fun i => s.msg.read (a + i)) ∧
        t.flags = s.flags ∧ t.ctx = s.ctx ∧ t.stream = s.stream ∧ t.ops = s.ops ∧ t.res = s.res ∧ t.seq = s.seq ∧
        MemoryUnchanged s t) ∧
    (s.port.events = .access (.memRead a n) :: rest ∨ s.port.events = .access (.memWrite a n v) :: rest →
      (1 ≤ n → n ≤ 8 → s.params.msgBytes < a + n → step s = .fault .hostMemOutside) ∧
      (n = 0 ∨ 8 < n → step s = .refused .hostMemWidth))

/-- R41: what a register read returns does not depend on K, SEED, S0 to S2, BUF, OFF, the sequencer registers, or TLEN
beyond its being zero. -/
def Obligations.InternalRegistersAreUnreadable : Prop :=
  ∀ (s t : State) (num : Nat), s.flags = t.flags → s.ops = t.ops → s.res = t.res → s.ctx.var = t.ctx.var →
    s.port.during = t.port.during → (s.stream.tlen = 0 ↔ t.stream.tlen = 0) → regRead num s = regRead num t

/-! ### Whole-machine rules -/

/-- R21 to R23, R30 to R33, R39, R40, R45, R49: no step but a reset changes a register unless it executes a command that
writes it: the engine context only an INIT, the stream context only SOPEN or WRITE, DIGEST only HASH or FINISH, RES0
only MUM or MIX, RES1 only MUM, GSEC only the running generator. -/
def Obligations.OnlyItsCommandsWriteARegister : Prop :=
  ∀ s t : State, step s = .next t → ¬ resetNext s →
    (t.ctx ≠ s.ctx → ∃ v, commandOf s = some (.initD v) ∨ commandOf s = some (.initS v) ∨ commandOf s = some (.initG v)) ∧
    (t.stream ≠ s.stream → commandOf s = some .sopen ∨ commandOf s = some .write) ∧
    (t.res.digest ≠ s.res.digest → commandOf s = some .hash ∨ commandOf s = some .finish) ∧
    (t.res.res0 ≠ s.res.res0 → ∃ v, commandOf s = some (.mum v) ∨ commandOf s = some (.mix v)) ∧
    (t.res.res1 ≠ s.res.res1 → ∃ v, commandOf s = some (.mum v)) ∧
    (t.res.gsec ≠ s.res.gsec → generatorNext s)

/-- R60, R74: no command and no step of the generator changes a byte of the message memory. -/
def Obligations.TheEngineNeverWritesMemory : Prop :=
  ∀ s t : State, step s = .next t → (commandOf s ≠ none ∨ s.flags.busy = true) → MemoryUnchanged s t

/-- R42, R32, R28: the invariant holds after reset. (That OFF is at most 48 there rests on the model's choice of its reset
value, log entry 1: R42 leaves OFF unspecified, and while no stream is open nothing reads it.) -/
def Obligations.ResetMeetsTheInvariant : Prop := Invariant State.reset

/-- The invariant (R25, R28, R29, R32, R60, R190, R216, R218) is kept by every step from every state that meets it. -/
def Obligations.EveryStepKeepsTheInvariant : Prop := ∀ s t : State, Invariant s → step s = .next t → Invariant t

/-- R262: registers nothing has written are never read: two states that differ only there do the same in every step and
again differ only there. -/
def Obligations.UnwrittenRegistersAreNeverRead : Prop :=
  ∀ s t : State, SameWritten s t → OutcomeRel SameWritten (step s) (step t)

/-- R42, R262: "every claim about digests is independent of the choice": whatever the unspecified registers hold at
reset, every host, in any number of steps, learns the same. -/
def Obligations.ResetValuesNobodyCanLearn : Prop :=
  ∀ (c : EngineCtx) (st : StreamCtx) (q : Sequencer) (msg : Memory) (p : Params) (events : List HostEvent) (n : Nat),
    learnt (core.run n { resetWith c st q with msg := msg, params := p, port := { State.reset.port with events := events } }) =
    learnt (core.run n { State.reset with msg := msg, params := p, port := { State.reset.port with events := events } })
end

