-- ==== Sys2Proof/Laws/Arith.lean ====
section
/-! SUPPORT. The word operators and the multiply-mix primitive: the halves swapped, the exact products, symmetry. -/

namespace Sys2Proof.Machine

/-- `rot32` swaps the halves (R9). -/
theorem rot32_append (x y : BitVec 32) : rot32 (x ++ y) = y ++ x := by
  apply BitVec.eq_of_getLsbD_eq
  intro i hi
  simp only [rot32, BitVec.getLsbD_or, BitVec.getLsbD_shiftLeft, BitVec.getLsbD_ushiftRight, BitVec.getLsbD_append]
  by_cases h : i < 32
  · simp [h]
  · have hx : x.getLsbD i = false := BitVec.getLsbD_of_ge x i (by omega)
    simp [h, hi, hx, show i - 32 < 32 by omega, show ¬ 32 + i < 32 by omega]

/-- A word is its high half above its low half. -/
theorem hi32_append_lo32 (x : Word) : hi32 x ++ lo32 x = x := by
  apply BitVec.eq_of_getLsbD_eq
  intro i hi
  simp only [hi32, lo32, BitVec.getLsbD_append, BitVec.getLsbD_extractLsb']
  by_cases h : i < 32
  · simp [h]
  · simp [h, show i - 32 < 32 by omega, show 32 + (i - 32) = i by omega]

theorem toNat_hi32 (x : Word) : (hi32 x).toNat = x.toNat / 2 ^ 32 := by
  have := x.isLt
  simp only [hi32, BitVec.extractLsb'_toNat, Nat.shiftRight_eq_div_pow]
  omega

theorem toNat_lo32 (x : Word) : (lo32 x).toNat = x.toNat % 2 ^ 32 := by simp [lo32]

/-- The 32×32 product is exact: it fits 64 bits. -/
theorem toNat_mul32 (x y : BitVec 32) : (mul32 x y).toNat = x.toNat * y.toNat := by
  have : x.toNat * y.toNat < 2 ^ 32 * 2 ^ 32 := Nat.mul_lt_mul'' x.isLt y.isLt
  simp only [mul32, BitVec.toNat_ofNat]
  omega

theorem mul32_comm (x y : BitVec 32) : mul32 x y = mul32 y x := by simp only [mul32, Nat.mul_comm]

theorem rot32_xor (x y : Word) : rot32 (x ^^^ y) = rot32 x ^^^ rot32 y := by
  simp only [rot32, BitVec.shiftLeft_xor_distrib, BitVec.ushiftRight_xor_distrib]
  apply BitVec.eq_of_getLsbD_eq
  intro i hi
  simp only [BitVec.getLsbD_or, BitVec.getLsbD_xor, BitVec.getLsbD_shiftLeft, BitVec.getLsbD_ushiftRight]
  by_cases h : i < 32
  · simp [h]
  · simp [h, BitVec.getLsbD_of_ge x (32 + i) (by omega), BitVec.getLsbD_of_ge y (32 + i) (by omega)]

end Sys2Proof.Machine
end

