-- ==== Sys2Proof/Laws/State.lean ====
section
/-! SUPPORT. One lemma per update and per part of the state: what the update writes and what it leaves. Every proof about
an instruction rests on these, so that none unfolds a record update. -/

namespace Sys2Proof.Machine

variable (s : State)

/-! #### State.setDigest -/

@[simp] theorem State.setDigest_ctx (d : Word) : (s.setDigest d).ctx = s.ctx := rfl
@[simp] theorem State.setDigest_stream (d : Word) : (s.setDigest d).stream = s.stream := rfl
@[simp] theorem State.setDigest_flags (d : Word) : (s.setDigest d).flags = s.flags := rfl
@[simp] theorem State.setDigest_ops (d : Word) : (s.setDigest d).ops = s.ops := rfl
@[simp] theorem State.setDigest_res (d : Word) : (s.setDigest d).res = { s.res with digest := d } := rfl
@[simp] theorem State.setDigest_seq (d : Word) : (s.setDigest d).seq = s.seq := rfl
@[simp] theorem State.setDigest_msg (d : Word) : (s.setDigest d).msg = s.msg := rfl
@[simp] theorem State.setDigest_params (d : Word) : (s.setDigest d).params = s.params := rfl
@[simp] theorem State.setDigest_port (d : Word) : (s.setDigest d).port = s.port := rfl

/-! #### State.setRes0 -/

@[simp] theorem State.setRes0_ctx (x : Word) : (s.setRes0 x).ctx = s.ctx := rfl
@[simp] theorem State.setRes0_stream (x : Word) : (s.setRes0 x).stream = s.stream := rfl
@[simp] theorem State.setRes0_flags (x : Word) : (s.setRes0 x).flags = s.flags := rfl
@[simp] theorem State.setRes0_ops (x : Word) : (s.setRes0 x).ops = s.ops := rfl
@[simp] theorem State.setRes0_res (x : Word) : (s.setRes0 x).res = { s.res with res0 := x } := rfl
@[simp] theorem State.setRes0_seq (x : Word) : (s.setRes0 x).seq = s.seq := rfl
@[simp] theorem State.setRes0_msg (x : Word) : (s.setRes0 x).msg = s.msg := rfl
@[simp] theorem State.setRes0_params (x : Word) : (s.setRes0 x).params = s.params := rfl
@[simp] theorem State.setRes0_port (x : Word) : (s.setRes0 x).port = s.port := rfl

/-! #### State.setResPair -/

@[simp] theorem State.setResPair_ctx (p : Word × Word) : (s.setResPair p).ctx = s.ctx := rfl
@[simp] theorem State.setResPair_stream (p : Word × Word) : (s.setResPair p).stream = s.stream := rfl
@[simp] theorem State.setResPair_flags (p : Word × Word) : (s.setResPair p).flags = s.flags := rfl
@[simp] theorem State.setResPair_ops (p : Word × Word) : (s.setResPair p).ops = s.ops := rfl
@[simp] theorem State.setResPair_res (p : Word × Word) : (s.setResPair p).res = { s.res with res0 := p.1, res1 := p.2 } := rfl
@[simp] theorem State.setResPair_seq (p : Word × Word) : (s.setResPair p).seq = s.seq := rfl
@[simp] theorem State.setResPair_msg (p : Word × Word) : (s.setResPair p).msg = s.msg := rfl
@[simp] theorem State.setResPair_params (p : Word × Word) : (s.setResPair p).params = s.params := rfl
@[simp] theorem State.setResPair_port (p : Word × Word) : (s.setResPair p).port = s.port := rfl

/-! #### State.loadContext -/

@[simp] theorem State.loadContext_ctx (c : EngineCtx) : (s.loadContext c).ctx = c := rfl
@[simp] theorem State.loadContext_stream (c : EngineCtx) : (s.loadContext c).stream = s.stream := rfl
@[simp] theorem State.loadContext_flags (c : EngineCtx) : (s.loadContext c).flags = { s.flags with initd := true, svalid := false } := rfl
@[simp] theorem State.loadContext_ops (c : EngineCtx) : (s.loadContext c).ops = s.ops := rfl
@[simp] theorem State.loadContext_res (c : EngineCtx) : (s.loadContext c).res = s.res := rfl
@[simp] theorem State.loadContext_seq (c : EngineCtx) : (s.loadContext c).seq = s.seq := rfl
@[simp] theorem State.loadContext_msg (c : EngineCtx) : (s.loadContext c).msg = s.msg := rfl
@[simp] theorem State.loadContext_params (c : EngineCtx) : (s.loadContext c).params = s.params := rfl
@[simp] theorem State.loadContext_port (c : EngineCtx) : (s.loadContext c).port = s.port := rfl

/-! #### State.setStream -/

@[simp] theorem State.setStream_ctx (st : StreamCtx) : (s.setStream st).ctx = s.ctx := rfl
@[simp] theorem State.setStream_stream (st : StreamCtx) : (s.setStream st).stream = st := rfl
@[simp] theorem State.setStream_flags (st : StreamCtx) : (s.setStream st).flags = s.flags := rfl
@[simp] theorem State.setStream_ops (st : StreamCtx) : (s.setStream st).ops = s.ops := rfl
@[simp] theorem State.setStream_res (st : StreamCtx) : (s.setStream st).res = s.res := rfl
@[simp] theorem State.setStream_seq (st : StreamCtx) : (s.setStream st).seq = s.seq := rfl
@[simp] theorem State.setStream_msg (st : StreamCtx) : (s.setStream st).msg = s.msg := rfl
@[simp] theorem State.setStream_params (st : StreamCtx) : (s.setStream st).params = s.params := rfl
@[simp] theorem State.setStream_port (st : StreamCtx) : (s.setStream st).port = s.port := rfl

/-! #### State.openStream -/

@[simp] theorem State.openStream_ctx (st : StreamCtx) : (s.openStream st).ctx = s.ctx := rfl
@[simp] theorem State.openStream_stream (st : StreamCtx) : (s.openStream st).stream = st := rfl
@[simp] theorem State.openStream_flags (st : StreamCtx) : (s.openStream st).flags = { s.flags with svalid := true } := rfl
@[simp] theorem State.openStream_ops (st : StreamCtx) : (s.openStream st).ops = s.ops := rfl
@[simp] theorem State.openStream_res (st : StreamCtx) : (s.openStream st).res = s.res := rfl
@[simp] theorem State.openStream_seq (st : StreamCtx) : (s.openStream st).seq = s.seq := rfl
@[simp] theorem State.openStream_msg (st : StreamCtx) : (s.openStream st).msg = s.msg := rfl
@[simp] theorem State.openStream_params (st : StreamCtx) : (s.openStream st).params = s.params := rfl
@[simp] theorem State.openStream_port (st : StreamCtx) : (s.openStream st).port = s.port := rfl

/-! #### State.setSeq -/

@[simp] theorem State.setSeq_ctx (q : Sequencer) : (s.setSeq q).ctx = s.ctx := rfl
@[simp] theorem State.setSeq_stream (q : Sequencer) : (s.setSeq q).stream = s.stream := rfl
@[simp] theorem State.setSeq_flags (q : Sequencer) : (s.setSeq q).flags = s.flags := rfl
@[simp] theorem State.setSeq_ops (q : Sequencer) : (s.setSeq q).ops = s.ops := rfl
@[simp] theorem State.setSeq_res (q : Sequencer) : (s.setSeq q).res = s.res := rfl
@[simp] theorem State.setSeq_seq (q : Sequencer) : (s.setSeq q).seq = q := rfl
@[simp] theorem State.setSeq_msg (q : Sequencer) : (s.setSeq q).msg = s.msg := rfl
@[simp] theorem State.setSeq_params (q : Sequencer) : (s.setSeq q).params = s.params := rfl
@[simp] theorem State.setSeq_port (q : Sequencer) : (s.setSeq q).port = s.port := rfl

/-! #### State.setOps -/

@[simp] theorem State.setOps_ctx (o : Operands) : (s.setOps o).ctx = s.ctx := rfl
@[simp] theorem State.setOps_stream (o : Operands) : (s.setOps o).stream = s.stream := rfl
@[simp] theorem State.setOps_flags (o : Operands) : (s.setOps o).flags = s.flags := rfl
@[simp] theorem State.setOps_ops (o : Operands) : (s.setOps o).ops = o := rfl
@[simp] theorem State.setOps_res (o : Operands) : (s.setOps o).res = s.res := rfl
@[simp] theorem State.setOps_seq (o : Operands) : (s.setOps o).seq = s.seq := rfl
@[simp] theorem State.setOps_msg (o : Operands) : (s.setOps o).msg = s.msg := rfl
@[simp] theorem State.setOps_params (o : Operands) : (s.setOps o).params = s.params := rfl
@[simp] theorem State.setOps_port (o : Operands) : (s.setOps o).port = s.port := rfl

/-! #### State.setMsg -/

@[simp] theorem State.setMsg_ctx (m : Memory) : (s.setMsg m).ctx = s.ctx := rfl
@[simp] theorem State.setMsg_stream (m : Memory) : (s.setMsg m).stream = s.stream := rfl
@[simp] theorem State.setMsg_flags (m : Memory) : (s.setMsg m).flags = s.flags := rfl
@[simp] theorem State.setMsg_ops (m : Memory) : (s.setMsg m).ops = s.ops := rfl
@[simp] theorem State.setMsg_res (m : Memory) : (s.setMsg m).res = s.res := rfl
@[simp] theorem State.setMsg_seq (m : Memory) : (s.setMsg m).seq = s.seq := rfl
@[simp] theorem State.setMsg_msg (m : Memory) : (s.setMsg m).msg = m := rfl
@[simp] theorem State.setMsg_params (m : Memory) : (s.setMsg m).params = s.params := rfl
@[simp] theorem State.setMsg_port (m : Memory) : (s.setMsg m).port = s.port := rfl

/-! #### State.setEvents -/

@[simp] theorem State.setEvents_ctx (es : List HostEvent) : (s.setEvents es).ctx = s.ctx := rfl
@[simp] theorem State.setEvents_stream (es : List HostEvent) : (s.setEvents es).stream = s.stream := rfl
@[simp] theorem State.setEvents_flags (es : List HostEvent) : (s.setEvents es).flags = s.flags := rfl
@[simp] theorem State.setEvents_ops (es : List HostEvent) : (s.setEvents es).ops = s.ops := rfl
@[simp] theorem State.setEvents_res (es : List HostEvent) : (s.setEvents es).res = s.res := rfl
@[simp] theorem State.setEvents_seq (es : List HostEvent) : (s.setEvents es).seq = s.seq := rfl
@[simp] theorem State.setEvents_msg (es : List HostEvent) : (s.setEvents es).msg = s.msg := rfl
@[simp] theorem State.setEvents_params (es : List HostEvent) : (s.setEvents es).params = s.params := rfl
@[simp] theorem State.setEvents_port (es : List HostEvent) : (s.setEvents es).port = { s.port with events := es } := rfl

/-! #### State.setHeld -/

@[simp] theorem State.setHeld_ctx (as : List HostAccess) : (s.setHeld as).ctx = s.ctx := rfl
@[simp] theorem State.setHeld_stream (as : List HostAccess) : (s.setHeld as).stream = s.stream := rfl
@[simp] theorem State.setHeld_flags (as : List HostAccess) : (s.setHeld as).flags = s.flags := rfl
@[simp] theorem State.setHeld_ops (as : List HostAccess) : (s.setHeld as).ops = s.ops := rfl
@[simp] theorem State.setHeld_res (as : List HostAccess) : (s.setHeld as).res = s.res := rfl
@[simp] theorem State.setHeld_seq (as : List HostAccess) : (s.setHeld as).seq = s.seq := rfl
@[simp] theorem State.setHeld_msg (as : List HostAccess) : (s.setHeld as).msg = s.msg := rfl
@[simp] theorem State.setHeld_params (as : List HostAccess) : (s.setHeld as).params = s.params := rfl
@[simp] theorem State.setHeld_port (as : List HostAccess) : (s.setHeld as).port = { s.port with held := as } := rfl

/-! #### State.hold -/

@[simp] theorem State.hold_ctx (a : HostAccess) : (s.hold a).ctx = s.ctx := rfl
@[simp] theorem State.hold_stream (a : HostAccess) : (s.hold a).stream = s.stream := rfl
@[simp] theorem State.hold_flags (a : HostAccess) : (s.hold a).flags = s.flags := rfl
@[simp] theorem State.hold_ops (a : HostAccess) : (s.hold a).ops = s.ops := rfl
@[simp] theorem State.hold_res (a : HostAccess) : (s.hold a).res = s.res := rfl
@[simp] theorem State.hold_seq (a : HostAccess) : (s.hold a).seq = s.seq := rfl
@[simp] theorem State.hold_msg (a : HostAccess) : (s.hold a).msg = s.msg := rfl
@[simp] theorem State.hold_params (a : HostAccess) : (s.hold a).params = s.params := rfl
@[simp] theorem State.hold_port (a : HostAccess) : (s.hold a).port = { s.port with held := s.port.held ++ [a] } := rfl

/-! #### State.reply -/

@[simp] theorem State.reply_ctx (x : Word) : (s.reply x).ctx = s.ctx := rfl
@[simp] theorem State.reply_stream (x : Word) : (s.reply x).stream = s.stream := rfl
@[simp] theorem State.reply_flags (x : Word) : (s.reply x).flags = s.flags := rfl
@[simp] theorem State.reply_ops (x : Word) : (s.reply x).ops = s.ops := rfl
@[simp] theorem State.reply_res (x : Word) : (s.reply x).res = s.res := rfl
@[simp] theorem State.reply_seq (x : Word) : (s.reply x).seq = s.seq := rfl
@[simp] theorem State.reply_msg (x : Word) : (s.reply x).msg = s.msg := rfl
@[simp] theorem State.reply_params (x : Word) : (s.reply x).params = s.params := rfl
@[simp] theorem State.reply_port (x : Word) : (s.reply x).port = { s.port with replies := x :: s.port.replies } := rfl

/-! #### State.endWindow -/

@[simp] theorem State.endWindow_ctx : (s.endWindow).ctx = s.ctx := rfl
@[simp] theorem State.endWindow_stream : (s.endWindow).stream = s.stream := rfl
@[simp] theorem State.endWindow_flags : (s.endWindow).flags = s.flags := rfl
@[simp] theorem State.endWindow_ops : (s.endWindow).ops = s.ops := rfl
@[simp] theorem State.endWindow_res : (s.endWindow).res = s.res := rfl
@[simp] theorem State.endWindow_seq : (s.endWindow).seq = s.seq := rfl
@[simp] theorem State.endWindow_msg : (s.endWindow).msg = s.msg := rfl
@[simp] theorem State.endWindow_params : (s.endWindow).params = s.params := rfl
@[simp] theorem State.endWindow_port : (s.endWindow).port = { s.port with during := none } := rfl

/-! #### State.startCommand -/

@[simp] theorem State.startCommand_ctx : (s.startCommand).ctx = s.ctx := rfl
@[simp] theorem State.startCommand_stream : (s.startCommand).stream = s.stream := rfl
@[simp] theorem State.startCommand_flags : (s.startCommand).flags = s.flags := rfl
@[simp] theorem State.startCommand_ops : (s.startCommand).ops = s.ops := rfl
@[simp] theorem State.startCommand_res : (s.startCommand).res = s.res := rfl
@[simp] theorem State.startCommand_seq : (s.startCommand).seq = s.seq := rfl
@[simp] theorem State.startCommand_msg : (s.startCommand).msg = s.msg := rfl
@[simp] theorem State.startCommand_params : (s.startCommand).params = s.params := rfl
@[simp] theorem State.startCommand_port : (s.startCommand).port = { s.port with during := some (statusBusy s) } := rfl

/-! #### State.raiseFault -/

@[simp] theorem State.raiseFault_ctx (c : ErrCode) (w : Word) : (s.raiseFault c w).ctx = s.ctx := rfl
@[simp] theorem State.raiseFault_stream (c : ErrCode) (w : Word) : (s.raiseFault c w).stream = s.stream := rfl
@[simp] theorem State.raiseFault_flags (c : ErrCode) (w : Word) : (s.raiseFault c w).flags = { s.flags with fault := true, err := c, busy := false } := rfl
@[simp] theorem State.raiseFault_ops (c : ErrCode) (w : Word) : (s.raiseFault c w).ops = s.ops := rfl
@[simp] theorem State.raiseFault_res (c : ErrCode) (w : Word) : (s.raiseFault c w).res = { s.res with errInfo := w } := rfl
@[simp] theorem State.raiseFault_seq (c : ErrCode) (w : Word) : (s.raiseFault c w).seq = s.seq := rfl
@[simp] theorem State.raiseFault_msg (c : ErrCode) (w : Word) : (s.raiseFault c w).msg = s.msg := rfl
@[simp] theorem State.raiseFault_params (c : ErrCode) (w : Word) : (s.raiseFault c w).params = s.params := rfl
@[simp] theorem State.raiseFault_port (c : ErrCode) (w : Word) : (s.raiseFault c w).port = { s.port with during := none } := rfl

/-! #### State.resetEngine -/

@[simp] theorem State.resetEngine_ctx : (s.resetEngine).ctx = State.reset.ctx := rfl
@[simp] theorem State.resetEngine_stream : (s.resetEngine).stream = State.reset.stream := rfl
@[simp] theorem State.resetEngine_flags : (s.resetEngine).flags = State.reset.flags := rfl
@[simp] theorem State.resetEngine_ops : (s.resetEngine).ops = State.reset.ops := rfl
@[simp] theorem State.resetEngine_res : (s.resetEngine).res = State.reset.res := rfl
@[simp] theorem State.resetEngine_seq : (s.resetEngine).seq = State.reset.seq := rfl
@[simp] theorem State.resetEngine_msg : (s.resetEngine).msg = s.msg := rfl
@[simp] theorem State.resetEngine_params : (s.resetEngine).params = s.params := rfl
@[simp] theorem State.resetEngine_port : (s.resetEngine).port = { s.port with during := none } := rfl

/-! #### State.startGensec -/

@[simp] theorem State.startGensec_ctx (v : Variant) : (s.startGensec v).ctx = s.ctx := rfl
@[simp] theorem State.startGensec_stream (v : Variant) : (s.startGensec v).stream = s.stream := rfl
@[simp] theorem State.startGensec_flags (v : Variant) : (s.startGensec v).flags = { s.flags with busy := true, gvalid := false } := rfl
@[simp] theorem State.startGensec_ops (v : Variant) : (s.startGensec v).ops = s.ops := rfl
@[simp] theorem State.startGensec_res (v : Variant) : (s.startGensec v).res = s.res := rfl
@[simp] theorem State.startGensec_seq (v : Variant) : (s.startGensec v).seq = { s.seq with g := s.ops.seedIn, cand := 0, gi := 0, gj := 0, gph := .draw, gvar := v } := rfl
@[simp] theorem State.startGensec_msg (v : Variant) : (s.startGensec v).msg = s.msg := rfl
@[simp] theorem State.startGensec_params (v : Variant) : (s.startGensec v).params = s.params := rfl
@[simp] theorem State.startGensec_port (v : Variant) : (s.startGensec v).port = s.port := rfl

/-! #### State.storeWord -/

@[simp] theorem State.storeWord_ctx : (s.storeWord).ctx = s.ctx := rfl
@[simp] theorem State.storeWord_stream : (s.storeWord).stream = s.stream := rfl
@[simp] theorem State.storeWord_flags : (s.storeWord).flags = s.flags := rfl
@[simp] theorem State.storeWord_ops : (s.storeWord).ops = s.ops := rfl
@[simp] theorem State.storeWord_res : (s.storeWord).res = { s.res with gsec := s.res.gsec.set s.seq.gi.toNat s.seq.cand } := rfl
@[simp] theorem State.storeWord_seq : (s.storeWord).seq = s.seq := rfl
@[simp] theorem State.storeWord_msg : (s.storeWord).msg = s.msg := rfl
@[simp] theorem State.storeWord_params : (s.storeWord).params = s.params := rfl
@[simp] theorem State.storeWord_port : (s.storeWord).port = s.port := rfl

/-! #### State.endGensec -/

@[simp] theorem State.endGensec_ctx : (s.endGensec).ctx = s.ctx := rfl
@[simp] theorem State.endGensec_stream : (s.endGensec).stream = s.stream := rfl
@[simp] theorem State.endGensec_flags : (s.endGensec).flags = { s.flags with busy := false, gvalid := true } := rfl
@[simp] theorem State.endGensec_ops : (s.endGensec).ops = s.ops := rfl
@[simp] theorem State.endGensec_res : (s.endGensec).res = s.res := rfl
@[simp] theorem State.endGensec_seq : (s.endGensec).seq = { s.seq with gph := .idle } := rfl
@[simp] theorem State.endGensec_msg : (s.endGensec).msg = s.msg := rfl
@[simp] theorem State.endGensec_params : (s.endGensec).params = s.params := rfl
@[simp] theorem State.endGensec_port : (s.endGensec).port = { s.port with during := none } := rfl

end Sys2Proof.Machine
end

