-- ==== Sys2Proof/Laws/Exec.lean ====
section
/-! SUPPORT. What executing a command can do, said once: it ran, its checks passed, or it entered the fault state. -/

namespace Sys2Proof.Machine

/-- The command passed its checks and ran: for each command what the checks were and the state it leaves. -/
inductive Ran (s : State) : Instr → State → Prop where
  | mum (v : Variant) : Ran s (.mum v) (s.startCommand.setResPair (mum v s.ops.opA s.ops.opB))
  | mix (v : Variant) : Ran s (.mix v) (s.startCommand.setRes0 (mix v s.ops.opA s.ops.opB))
  | initD (v : Variant) : Ran s (.initD v) (s.startCommand.loadContext (construct v defaultSecret s.ops.seedIn))
  | initS (v : Variant) : Ran s (.initS v) (s.startCommand.loadContext (construct v s.ops.secIn s.ops.seedIn))
  | initG (v : Variant) (valid : s.flags.gvalid = true) :
      Ran s (.initG v) (s.startCommand.loadContext (construct v s.res.gsec s.ops.seedIn))
  | hash (engine : s.flags.initd = true) (bounds : chunkInRange s = true) :
      Ran s .hash (s.startCommand.setDigest (hashV s.ctx.var s.ctx.k s.ctx.seed (chunk s)))
  | sopen (engine : s.flags.initd = true) : Ran s .sopen (s.startCommand.openStream (emptyStream s.ctx.seed))
  | write (stream : s.flags.svalid = true) (bounds : chunkInRange s = true) (fits : lengthFits s = true) :
      Ran s .write (s.startCommand.setStream (streamWrite s.ctx.var s.ctx.k s.stream (chunk s)))
  | finish (stream : s.flags.svalid = true) :
      Ran s .finish (s.startCommand.setDigest (streamFinish s.ctx.var s.ctx.k s.stream))
  | gensec (v : Variant) : Ran s (.gensec v) (s.startCommand.startGensec v)

/-- The one inversion lemma of `exec`: a command ran, or it faulted with a code of R231 and its own word. -/
theorem exec_cases {i : Instr} {s t : State} (h : exec i s = .next t) :
    Ran s i t ∨ ∃ code, code ≠ .noError ∧ t = s.raiseFault code (cmdValue i) := by
  cases i with
  | mum v => cases h; exact .inl (.mum v)
  | mix v => cases h; exact .inl (.mix v)
  | initD v => cases h; exact .inl (.initD v)
  | initS v => cases h; exact .inl (.initS v)
  | initG v =>
    simp only [exec, execInitG] at h
    split at h
    · cases h; exact .inr ⟨_, by decide, rfl⟩
    · cases h; exact .inl (.initG v (by simp_all))
  | hash =>
    simp only [exec, execHash] at h
    split at h
    · cases h; exact .inr ⟨_, by decide, rfl⟩
    · split at h
      · cases h; exact .inr ⟨_, by decide, rfl⟩
      · cases h; exact .inl (.hash (by simp_all) (by simp_all))
  | sopen =>
    simp only [exec, execSopen] at h
    split at h
    · cases h; exact .inr ⟨_, by decide, rfl⟩
    · cases h; exact .inl (.sopen (by simp_all))
  | write =>
    simp only [exec, execWrite] at h
    split at h
    · cases h; exact .inr ⟨_, by decide, rfl⟩
    · split at h
      · cases h; exact .inr ⟨_, by decide, rfl⟩
      · split at h
        · cases h; exact .inr ⟨_, by decide, rfl⟩
        · cases h; exact .inl (.write (by simp_all) (by simp_all) (by simp_all))
  | finish =>
    simp only [exec, execFinish] at h
    split at h
    · cases h; exact .inr ⟨_, by decide, rfl⟩
    · cases h; exact .inl (.finish (by simp_all))
  | gensec v => cases h; exact .inl (.gensec v)

/-- Every command answers a next state, in every state: there is no command the model stops on. -/
theorem exec_isNext (i : Instr) (s : State) : ∃ t, exec i s = .next t := by
  cases i <;>
    simp only [exec, execMum, execMix, execInitD, execInitS, execInitG, execHash, execSopen, execWrite, execFinish,
      execGensec, faultWith] <;>
    repeat' split
  all_goals exact ⟨_, rfl⟩

/-- `chunkInRange` as the sum it checks (R234). -/
theorem chunkInRange_iff (s : State) :
    chunkInRange s = true ↔ s.ops.ptr.toNat + s.ops.len.toNat ≤ s.params.msgBytes := by simp [chunkInRange]

/-- `lengthFits` as the sum it checks (R235). -/
theorem lengthFits_iff (s : State) : lengthFits s = true ↔ s.stream.tlen.toNat + s.ops.len.toNat < 2 ^ 64 := by
  simp [lengthFits]

@[simp] theorem length_chunk (s : State) : (chunk s).length = s.ops.len.toNat := by
  simp [chunk, Memory.readBytes]

/-- No command changes an operand register, the message memory, a parameter, or what the host does and has been
answered. -/
theorem Ran.frame {s t : State} {i : Instr} (h : Ran s i t) :
    t.ops = s.ops ∧ t.msg = s.msg ∧ t.params = s.params ∧ t.port = s.startCommand.port := by
  cases h <;> exact ⟨rfl, rfl, rfl, rfl⟩

/-- A command that runs leaves FAULT, ERR and ERRINFO as they were. -/
theorem Ran.fault {s t : State} {i : Instr} (h : Ran s i t) :
    t.flags.fault = s.flags.fault ∧ t.flags.err = s.flags.err ∧ t.res.errInfo = s.res.errInfo := by
  cases h <;> exact ⟨rfl, rfl, rfl⟩

end Sys2Proof.Machine
end

