-- ==== Sys2Proof/Laws/Memory.lean ====
section
/-! SUPPORT. The message memory: read after write, the other bytes, and the canonical form every operation keeps. -/

namespace Sys2Proof.Machine

theorem Memory.wf_nil : Memory.wf [] := by simp [Memory.wf]

theorem Memory.wf_cons {a : Nat} {b : Byte} {m : Memory} :
    Memory.wf ((a, b) :: m) ↔ (∀ c ∈ m, a < c.1) ∧ b ≠ Memory.unlisted ∧ Memory.wf m := by
  simp only [Memory.wf, List.pairwise_cons, List.forall_mem_cons]
  tauto

/-- An address below every listed one is unlisted. -/
theorem Memory.read_of_lt {m : Memory} {x : Nat} (h : ∀ c ∈ m, x < c.1) : m.read x = Memory.unlisted := by
  induction m with
  | nil => rfl
  | cons c m ih =>
    have hc := h c (by simp)
    rw [Memory.read, if_neg (by omega), ih fun d hd => h d (by simp [hd])]

/-- A write leaves every other address alone. -/
theorem Memory.read_write_other (m : Memory) {x y : Nat} (v : Byte) (h : y ≠ x) :
    (m.write x v).read y = m.read y := by
  induction m with
  | nil => unfold Memory.write; split <;> simp [Memory.read, h]
  | cons c m ih =>
    obtain ⟨a, b⟩ := c
    unfold Memory.write
    split
    · split <;> simp [Memory.read, h]
    · split
      · subst x; split <;> simp [Memory.read, h]
      · simp [Memory.read, ih]

/-- A read of the address written gives the value written. -/
theorem Memory.read_write_same {m : Memory} (hm : m.wf) (x : Nat) (v : Byte) : (m.write x v).read x = v := by
  induction m with
  | nil => unfold Memory.write; split <;> simp_all [Memory.read]
  | cons c m ih =>
    obtain ⟨a, b⟩ := c
    obtain ⟨ha, -, hw⟩ := Memory.wf_cons.1 hm
    unfold Memory.write
    split
    · split
      · rw [Memory.read, if_neg (by omega), Memory.read_of_lt fun d hd => by have := ha d hd; omega]
        simp_all
      · simp [Memory.read]
    · split
      · subst x
        split
        · rw [Memory.read_of_lt ha]; simp_all
        · simp [Memory.read]
      · rw [Memory.read, if_neg (by assumption), ih hw]

/-- Every address a write leaves listed was listed or is the one written. -/
theorem Memory.mem_write {m : Memory} {x : Nat} {v : Byte} {c : Host.Cell} (h : c ∈ m.write x v) :
    c ∈ m ∨ c = (x, v) := by
  induction m with
  | nil => unfold Memory.write at h; split at h <;> simp_all
  | cons d m ih =>
    obtain ⟨a, b⟩ := d
    unfold Memory.write at h
    split at h
    · split at h <;> simp_all <;> tauto
    · split at h
      · split at h <;> simp_all <;> tauto
      · rcases List.mem_cons.1 h with h | h
        · exact .inl (by simp [h])
        · rcases ih h with h | h
          · exact .inl (by simp [h])
          · exact .inr h

/-- A write keeps the canonical form. -/
theorem Memory.wf_write {m : Memory} (hm : m.wf) (x : Nat) (v : Byte) : (m.write x v).wf := by
  induction m with
  | nil => unfold Memory.write; split <;> simp_all [Memory.wf]
  | cons c m ih =>
    obtain ⟨a, b⟩ := c
    obtain ⟨ha, hb, hw⟩ := Memory.wf_cons.1 hm
    unfold Memory.write
    split
    · split
      · exact hm
      · refine Memory.wf_cons.2 ⟨fun d hd => ?_, by assumption, hm⟩
        rcases List.mem_cons.1 hd with rfl | hd
        · assumption
        · have := ha d hd; omega
    · split
      · subst x
        split
        · exact hw
        · exact Memory.wf_cons.2 ⟨ha, by assumption, hw⟩
      · refine Memory.wf_cons.2 ⟨fun d hd => ?_, hb, ih hw⟩
        rcases Memory.mem_write hd with hd | rfl
        · exact ha d hd
        · simp only; omega

/-- A write inside `[0, size)` keeps the memory inside it. -/
theorem Memory.within_write {m : Memory} {size x : Nat} (hm : m.within size) (hx : x < size) (v : Byte) :
    (m.write x v).within size := fun c hc => by
  rcases Memory.mem_write hc with h | rfl
  · exact hm c h
  · exact hx

/-- Storing bytes keeps the canonical form. -/
theorem Memory.wf_writeBytes {m : Memory} (hm : m.wf) (a : Nat) (bs : List Byte) : (m.writeBytes a bs).wf := by
  induction bs generalizing m a with
  | nil => exact hm
  | cons b bs ih => exact ih (Memory.wf_write hm a b) (a + 1)

/-- Storing bytes inside `[0, size)` keeps the memory inside it. -/
theorem Memory.within_writeBytes {m : Memory} {size : Nat} (hm : m.within size) (a : Nat) (bs : List Byte)
    (h : a + bs.length ≤ size) : (m.writeBytes a bs).within size := by
  induction bs generalizing m a with
  | nil => exact hm
  | cons b bs ih =>
    simp only [List.length_cons] at h
    exact ih (Memory.within_write hm (by omega) b) (a + 1) (by omega)

/-- Storing bytes leaves every address outside them alone. -/
theorem Memory.read_writeBytes_other (m : Memory) (a : Nat) (bs : List Byte) {x : Nat}
    (h : x < a ∨ a + bs.length ≤ x) : (m.writeBytes a bs).read x = m.read x := by
  induction bs generalizing m a with
  | nil => rfl
  | cons b bs ih =>
    simp only [List.length_cons] at h
    rw [Memory.writeBytes, ih _ _ (by omega), Memory.read_write_other _ _ (by omega)]

/-- Byte `i` of the stored bytes reads back. -/
theorem Memory.read_writeBytes_same {m : Memory} (hm : m.wf) (a : Nat) (bs : List Byte) {i : Nat}
    (h : i < bs.length) : (m.writeBytes a bs).read (a + i) = bs[i] := by
  induction bs generalizing m a i with
  | nil => simp at h
  | cons b bs ih =>
    rw [Memory.writeBytes]
    cases i with
    | zero =>
      rw [Memory.read_writeBytes_other _ _ _ (.inl (by omega)), Nat.add_zero, Memory.read_write_same hm]
      rfl
    | succ i =>
      have := ih (Memory.wf_write hm a b) (a + 1) (i := i) (by simpa using h)
      rw [Nat.add_assoc, Nat.add_comm 1 i] at this
      simpa using this

@[simp] theorem Memory.length_readBytes (m : Memory) (a n : Nat) : (m.readBytes a n).length = n := by
  simp [Memory.readBytes]

@[simp] theorem length_leBytes (n : Nat) (v : Word) : (leBytes n v).length = n := by simp [leBytes]

/-! ### Little-endian values -/

@[simp] theorem leNat_nil : leNat [] = 0 := rfl

@[simp] theorem leNat_cons (b : Byte) (bs : List Byte) : leNat (b :: bs) = b.toNat + 256 * leNat bs := rfl

theorem leNat_append (xs ys : List Byte) : leNat (xs ++ ys) = leNat xs + 256 ^ xs.length * leNat ys := by
  induction xs with
  | nil => simp
  | cons x xs ih => simp only [List.cons_append, leNat_cons, ih, List.length_cons, pow_succ]; ring

theorem leNat_lt (bs : List Byte) : leNat bs < 256 ^ bs.length := by
  induction bs with
  | nil => simp
  | cons b bs ih =>
    have hb : b.toNat < 256 := b.isLt
    simp only [leNat_cons, List.length_cons, pow_succ]
    omega

/-- The little-endian value of the low bytes of a word is the word modulo their width. -/
theorem leNat_leBytes (n : Nat) (v : Word) : leNat (leBytes n v) = v.toNat % 256 ^ n := by
  induction n with
  | zero => simp [leBytes, Nat.mod_one]
  | succ n ih =>
    have e : leBytes (n + 1) v = leBytes n v ++ [v.extractLsb' (8 * n) 8] := by simp [leBytes, List.range_succ]
    rw [e, leNat_append, ih, length_leBytes, Nat.mod_pow_succ]
    simp [Nat.shiftRight_eq_div_pow, Nat.pow_mul]

end Sys2Proof.Machine
end

