-- ==== Sys2Proof/Laws/Hash.lean ====
section
/-! SUPPORT. The one-shot hash by length: which operands the epilogue gets (spec/42_oneshot.md R151 to R164), and the values
of the little-endian reads as halves of a word. -/

namespace Sys2Proof.Machine

variable (v : Variant) (k : Secret) (w : Word)

/-- At most 16 bytes: the short operands under the working seed itself (R157). -/
theorem hashV_short {m : List Byte} (h : m.length ≤ 16) :
    hashV v k w m = epilogue v k w (shortAB m).1 (shortAB m).2 (BitVec.ofNat 64 m.length) := by
  simp only [hashV, h, if_true]

/-- More than 16 bytes: the final window under the seed the loops leave. -/
theorem hashV_long {m : List Byte} (h : 16 < m.length) :
    hashV v k w m = epilogue v k (longSeed v k w m) (le64 m (m.length - 16)) (le64 m (m.length - 8))
      (BitVec.ofNat 64 m.length) := by
  simp only [hashV, Nat.not_le.2 h, if_false, finalWindow]

theorem shortAB_upTo3 {m : List Byte} (h0 : m.length ≠ 0) (h : m.length ≤ 3) :
    shortAB m = ((byteAt m 0 <<< 16) ||| (byteAt m (m.length / 2) <<< 8) ||| byteAt m (m.length - 1), 0) := by
  simp only [shortAB, h0, h, if_false, if_true]

theorem shortAB_upTo7 {m : List Byte} (h0 : 3 < m.length) (h : m.length ≤ 7) :
    shortAB m = (doubled (le32 m 0), doubled (le32 m (m.length - 4))) := by
  simp only [shortAB, show m.length ≠ 0 by omega, Nat.not_le.2 h0, h, if_false, if_true]

theorem shortAB_upTo16 {m : List Byte} (h0 : 7 < m.length) :
    shortAB m = (rot32 (le64 m 0), le64 m (m.length - 8)) := by
  simp only [shortAB, show m.length ≠ 0 by omega, show ¬ m.length ≤ 3 by omega, Nat.not_le.2 h0, if_false]

/-- Eight little-endian bytes are the later four above the first four. -/
theorem le64_of_halves {p q : List Byte} (hp : p.length = 4) (hq : q.length = 4) :
    BitVec.ofNat 64 (leNat (p ++ q)) = BitVec.ofNat 32 (leNat q) ++ BitVec.ofNat 32 (leNat p) := by
  have a := leNat_lt p
  have b := leNat_lt q
  rw [hp] at a
  rw [hq] at b
  apply BitVec.eq_of_toNat_eq
  rw [BitVec.toNat_append, ← Nat.shiftLeft_add_eq_or_of_lt (BitVec.isLt _), leNat_append, hp]
  simp only [BitVec.toNat_ofNat, Nat.shiftLeft_eq]
  rw [Nat.mod_eq_of_lt (a := leNat p) (by simpa using a), Nat.mod_eq_of_lt (a := leNat q) (by simpa using b)]
  norm_num at *
  omega

/-- A 32-bit word doubled is that word in both halves. -/
theorem doubled_eq_append (u : BitVec 32) : doubled u = u ++ u := by
  apply BitVec.eq_of_getLsbD_eq
  intro i hi
  simp only [doubled, BitVec.getLsbD_append, BitVec.getLsbD_or, BitVec.getLsbD_shiftLeft, BitVec.getLsbD_setWidth]
  by_cases h : i < 32
  · simp only [h, hi]; simp
  · have : u.getLsbD i = false := BitVec.getLsbD_of_ge u i (by omega)
    simp [h, hi, this, show i - 32 < 64 by omega]

end Sys2Proof.Machine
end

