-- ==== Sys2Proof/Laws/HostPort.lean ====
section
/-! SUPPORT. The register map and the host's accesses: which numbers name a register, and what a register write and a STATUS
read leave alone. -/

namespace Sys2Proof.Machine

/-- The number of a register names it (R26). -/
@[simp] theorem HostReg.ofNum_num (r : HostReg) : HostReg.ofNum r.num = some r := by cases r <;> rfl

/-- Every number from 0x14 up is reserved (R26, R46). -/
theorem HostReg.ofNum_of_ge {n : Nat} (h : 20 ≤ n) : HostReg.ofNum n = none := by
  obtain ⟨m, rfl⟩ := Nat.exists_eq_add_of_le' h
  rfl

theorem regRead_of_ge {n : Nat} (h : 20 ≤ n) (s : State) : regRead n s = 0 := by
  rw [regRead, HostReg.ofNum_of_ge h]

theorem regWrite_of_ge {n : Nat} (h : 20 ≤ n) (x : Word) (s : State) : regWrite n x s = s := by
  rw [regWrite, HostReg.ofNum_of_ge h]

/-- A register write changes an operand register or nothing. -/
theorem regWrite_eq_setOps (n : Nat) (x : Word) (s : State) : ∃ o, regWrite n x s = s.setOps o := by
  unfold regWrite
  split
  · exact ⟨_, rfl⟩
  · exact ⟨s.ops, rfl⟩

/-- A STATUS read changes nothing but the answers and the closed window of the last command. -/
theorem readStatus_frame (s : State) :
    (readStatus s).ctx = s.ctx ∧ (readStatus s).stream = s.stream ∧ (readStatus s).flags = s.flags ∧
    (readStatus s).ops = s.ops ∧ (readStatus s).res = s.res ∧ (readStatus s).seq = s.seq ∧
    (readStatus s).msg = s.msg ∧ (readStatus s).params = s.params ∧
    (readStatus s).port.events = s.port.events ∧ (readStatus s).port.held = s.port.held ∧
    (s.flags.busy = true → (readStatus s).port.during = s.port.during) := by
  unfold readStatus
  split
  · exact ⟨rfl, rfl, rfl, rfl, rfl, rfl, rfl, rfl, rfl, rfl, fun _ => rfl⟩
  · exact ⟨rfl, rfl, rfl, rfl, rfl, rfl, rfl, rfl, rfl, rfl, fun h => absurd h ‹_›⟩

end Sys2Proof.Machine
end

