-- ==== Sys2Proof/Laws/PerInstr.lean ====
section
/-! SUPPORT. The statement made of every instruction, one lemma per constructor: it is well formed, and the value a host
writes to CMD for it decodes to it. -/

namespace Sys2Proof.Laws.Encoding

/-- A command is well formed (R96) and its own command word decodes to it (R95, R99). -/
def Statement (i : Instr) : Prop := i.wellFormed = true ∧ decode (cmdValue i) = .command i

theorem mum (v : Variant) : Statement (.mum v) := by cases v <;> exact ⟨rfl, rfl⟩
theorem mix (v : Variant) : Statement (.mix v) := by cases v <;> exact ⟨rfl, rfl⟩
theorem initD (v : Variant) : Statement (.initD v) := by cases v <;> exact ⟨rfl, rfl⟩
theorem initS (v : Variant) : Statement (.initS v) := by cases v <;> exact ⟨rfl, rfl⟩
theorem initG (v : Variant) : Statement (.initG v) := by cases v <;> exact ⟨rfl, rfl⟩
theorem hash : Statement .hash := ⟨rfl, rfl⟩
theorem sopen : Statement .sopen := ⟨rfl, rfl⟩
theorem write : Statement .write := ⟨rfl, rfl⟩
theorem finish : Statement .finish := ⟨rfl, rfl⟩
theorem gensec (v : Variant) : Statement (.gensec v) := by cases v <;> exact ⟨rfl, rfl⟩

end Sys2Proof.Laws.Encoding
end

