-- ==== Sys2Proof/Laws/Step.lean ====
section
/-! SUPPORT. What a step can do, said once: every way an access completes, and every way a step answers a next state. -/

namespace Sys2Proof.Machine

/-- The ways an access completes in `s` (an idle engine) with a next state. -/
inductive Served (s : State) : HostAccess → State → Prop where
  | regRead (num : Nat) : Served s (.regRead num) (s.endWindow.reply (regRead num s))
  | regWrite (num : Nat) (x : Word) (other : num ≠ 0) : Served s (.regWrite num x) (regWrite num x s.endWindow)
  | refusedCommand (w : Word) (faulted : s.flags.fault = true) : Served s (.regWrite 0 w) s.endWindow
  | illegal (w : Word) (e : DecodeError) (ok : s.flags.fault = false) (bad : decode w = .illegal e) :
      Served s (.regWrite 0 w) (s.endWindow.raiseFault .illegalCmd w)
  | command (w : Word) (i : Instr) (t : State) (ok : s.flags.fault = false) (good : decode w = .command i)
      (ran : exec i s.endWindow = .next t) : Served s (.regWrite 0 w) t
  | memRead (a : Nat) (n : Nat) (width : 1 ≤ n ∧ n ≤ 8) (inside : a + n ≤ s.params.msgBytes) :
      Served s (.memRead a n) (s.endWindow.reply (s.msg.readLE a n))
  | memWrite (a : Nat) (n : Nat) (v : Word) (width : 1 ≤ n ∧ n ≤ 8) (inside : a + n ≤ s.params.msgBytes) :
      Served s (.memWrite a n v) (s.endWindow.setMsg (s.msg.writeLE a n v))

/-- The inversion lemma of `serve`. -/
theorem serve_cases {a : HostAccess} {s t : State} (h : serve a s = .next t) : Served s a t := by
  cases a with
  | regRead n => cases h; exact .regRead n
  | regWrite n x =>
    simp only [serve] at h
    split at h
    · subst n
      unfold offerCommand at h
      split at h
      · cases h; exact .refusedCommand x ‹_›
      · split at h
        · cases h; exact .illegal x _ (by simp_all) ‹_›
        · exact .command x _ t (by simp_all) ‹_› h
    · cases h; exact .regWrite n x ‹_›
  | memRead a n =>
    simp only [serve, memRead] at h
    split at h
    · cases h
    · split at h
      · cases h
      · cases h; exact .memRead a n (by omega) (by simp_all)
  | memWrite a n v =>
    simp only [serve, memWrite] at h
    split at h
    · cases h
    · split at h
      · cases h
      · cases h; exact .memWrite a n v (by omega) (by simp_all)

/-- The state in which an access that completes in a step from `s` does so, and the access: it arrives at an idle
engine with nothing held, or it is the oldest held one and the host is quiet. -/
inductive Completes (s : State) : HostAccess → State → Prop where
  | arriving (a : HostAccess) (rest : List HostEvent) (next : s.port.events = .access a :: rest)
      (notStatus : HostAccess.isStatusRead a = false) (none : s.port.held = []) : Completes s a (s.setEvents rest)
  | heldEmpty (a : HostAccess) (later : List HostAccess) (next : s.port.events = [])
      (held : s.port.held = a :: later) : Completes s a (s.setHeld later)
  | heldQuiet (a : HostAccess) (later : List HostAccess) (rest : List HostEvent)
      (next : s.port.events = .quiet :: rest) (held : s.port.held = a :: later) :
      Completes s a ((s.setEvents rest).setHeld later)

/-- The ways a step answers a next state. -/
inductive Moved (s : State) : State → Prop where
  | reset (rest : List HostEvent) (next : s.port.events = .reset :: rest) : Moved s (s.setEvents rest).resetEngine
  | statusDuring (rest : List HostEvent) (next : s.port.events = .statusDuring :: rest) :
      Moved s (readStatusDuring (s.setEvents rest))
  | status (rest : List HostEvent) (next : s.port.events = .access (.regRead 1) :: rest) :
      Moved s (readStatus (s.setEvents rest))
  | hold (a : HostAccess) (rest : List HostEvent) (next : s.port.events = .access a :: rest)
      (notStatus : HostAccess.isStatusRead a = false) (wait : s.flags.busy = true ∨ s.port.held ≠ []) :
      Moved s ((s.setEvents rest).hold a)
  | generator (next : s.port.events = []) (busy : s.flags.busy = true) : Moved s (genStep s)
  | generatorQuiet (rest : List HostEvent) (next : s.port.events = .quiet :: rest) (busy : s.flags.busy = true) :
      Moved s (genStep (s.setEvents rest))
  | idle (next : s.port.events = []) (notBusy : s.flags.busy = false) (none : s.port.held = []) : Moved s s
  | idleQuiet (rest : List HostEvent) (next : s.port.events = .quiet :: rest) (notBusy : s.flags.busy = false)
      (none : s.port.held = []) : Moved s (s.setEvents rest)
  | access (a : HostAccess) (s' t : State) (notBusy : s.flags.busy = false) (which : Completes s a s')
      (served : Served s' a t) : Moved s t

/-- The one inversion lemma of `step`. -/
theorem step_cases {s t : State} (h : step s = .next t) : Moved s t := by
  unfold step at h
  split at h
  · rename_i he
    unfold engineMove at h
    split at h
    · cases h; exact .generator he ‹_›
    · split at h
      · cases h; exact .idle he (by simp_all) ‹_›
      · exact .access _ _ t (by simp_all) (.heldEmpty _ _ he ‹_›) (serve_cases h)
  · rename_i e rest he
    cases e with
    | access a =>
      simp only [takeEvent, arrive] at h
      split at h
      · rename_i ha
        obtain rfl : a = .regRead 1 := by simpa [HostAccess.isStatusRead] using ha
        cases h; exact .status rest he
      · split at h
        · rename_i ha hw
          cases h
          refine .hold a rest he (by simpa using ha) ?_
          simpa using hw
        · rename_i ha hw
          simp only [State.setEvents_flags, State.setEvents_port, Bool.or_eq_true, Bool.not_eq_true', not_or,
            Bool.not_eq_false, List.isEmpty_iff] at hw
          exact .access a _ t (by simpa using hw.1) (.arriving a rest he (by simpa using ha) hw.2) (serve_cases h)
    | statusDuring => cases h; exact .statusDuring rest he
    | quiet =>
      simp only [takeEvent, engineMove] at h
      split at h
      · cases h; exact .generatorQuiet rest he ‹_›
      · split at h
        · cases h; exact .idleQuiet rest he (by simp_all) ‹_›
        · exact .access _ _ t (by simp_all) (.heldQuiet _ _ rest he ‹_›) (serve_cases h)
    | reset => cases h; exact .reset rest he

/-- The access that completes in a step decides the command the step executes. -/
theorem Completes.commandOf_eq {s s' : State} {a : HostAccess} (h : Completes s a s') (busy : s.flags.busy = false) :
    commandOf s = commandIn a s := by
  cases h with
  | arriving rest next notStatus none => simp [commandOf, next, notStatus, busy, none]
  | heldEmpty later next held => simp [commandOf, commandHeld, next, busy, held]
  | heldQuiet later rest next held => simp [commandOf, commandHeld, next, busy, held]

/-- Taking the access off the port changes nothing else. -/
theorem Completes.frame {s s' : State} {a : HostAccess} (h : Completes s a s') :
    s'.ctx = s.ctx ∧ s'.stream = s.stream ∧ s'.flags = s.flags ∧ s'.ops = s.ops ∧ s'.res = s.res ∧ s'.seq = s.seq ∧
    s'.msg = s.msg ∧ s'.params = s.params ∧ s'.port.replies = s.port.replies ∧ s'.port.during = s.port.during := by
  cases h <;> exact ⟨rfl, rfl, rfl, rfl, rfl, rfl, rfl, rfl, rfl, rfl⟩

/-- A step of the generator leaves the engine context, the stream context, the operand registers, memory, the
parameters and the host's side alone. -/
theorem genStep_frame (s : State) :
    (genStep s).ctx = s.ctx ∧ (genStep s).stream = s.stream ∧ (genStep s).ops = s.ops ∧ (genStep s).msg = s.msg ∧
    (genStep s).params = s.params ∧ (genStep s).port.events = s.port.events ∧ (genStep s).port.held = s.port.held ∧
    (genStep s).port.replies = s.port.replies := by
  unfold genStep
  cases s.seq.gph <;> exact ⟨rfl, rfl, rfl, rfl, rfl, rfl, rfl, rfl⟩

end Sys2Proof.Machine
end

