-- ==== Sys2Proof/Laws/Program.lean ====
section
/-! SUPPORT. What a turn of a host that runs a program can do (spec/30_encoding.md R103), said once. -/

namespace Sys2Proof.Machine

/-- Binding a name touches neither the engine nor the lines. -/
@[simp] theorem HostRun.bind_engine (h : HostRun) : h.bind.engine = h.engine := by unfold HostRun.bind; split <;> rfl

@[simp] theorem HostRun.bind_lines (h : HostRun) : h.bind.lines = h.lines := by unfold HostRun.bind; split <;> rfl

/-- No name is bound while an access is held: the read has not completed. -/
theorem HostRun.bind_held {h : HostRun} (held : h.engine.port.held ≠ []) : h.bind = h := by
  unfold HostRun.bind
  split
  · exact absurd ‹_› held
  · rfl

/-- The read waited for has completed: its name is bound to the latest answer. -/
theorem HostRun.bind_some {h : HostRun} {n : String} {x : Word} {xs : List Word} (held : h.engine.port.held = [])
    (waiting : h.waiting = some n) (replies : h.engine.port.replies = x :: xs) :
    h.bind = { h with names := (n, x) :: h.names, waiting := none } := by
  simp only [HostRun.bind, held, waiting, replies]

/-- Without a name to bind nothing changes. -/
theorem HostRun.bind_none {h : HostRun} (waiting : h.waiting = none) : h.bind = h := by
  unfold HostRun.bind
  split
  · exact absurd (waiting.symm.trans ‹_›) (by simp)
  · rfl

/-- The inversion lemma of `advance`: it is one step of the engine. -/
theorem HostRun.advance_cases {e : HostEvent} {h h' : HostRun} (adv : h.advance e = .next h') :
    ∃ s, step (h.engine.setEvents (e :: h.engine.port.events)) = .next s ∧ h' = HostRun.bind { h with engine := s } := by
  unfold HostRun.advance at adv
  split at adv
  · cases adv; exact ⟨_, ‹_›, rfl⟩
  · cases adv
  · cases adv

/-- The ways a turn answers a next state: the engine moves, a reset comes, or, with no access held, the next line's
access is issued. -/
inductive Turned (h : HostRun) : HostRun → Prop where
  | quiet (s : State) (moved : step (h.engine.setEvents (.quiet :: h.engine.port.events)) = .next s) :
      Turned h (HostRun.bind { h with engine := s })
  | reset (s : State) (moved : step (h.engine.setEvents (.reset :: h.engine.port.events)) = .next s) :
      Turned h (HostRun.bind { h with engine := s })
  | issued (d : Directive) (rest : List Directive) (a : HostAccess) (s : State) (none : h.engine.port.held = [])
      (line : h.lines = d :: rest) (access : Directive.access h.names d = some a)
      (moved : step (h.engine.setEvents (.access a :: h.engine.port.events)) = .next s) :
      Turned h (HostRun.bind { h with engine := s, lines := rest, waiting := Directive.binds d })

/-- The one inversion lemma of `turn`. -/
theorem HostRun.turn_cases {t : Turn} {h h' : HostRun} (next : h.turn t = .next h') : Turned h h' := by
  cases t with
  | wait => obtain ⟨s, hs, rfl⟩ := HostRun.advance_cases (e := .quiet) (h := h) next; exact .quiet s hs
  | reset => obtain ⟨s, hs, rfl⟩ := HostRun.advance_cases (e := .reset) (h := h) next; exact .reset s hs
  | issue =>
    simp only [HostRun.turn, HostRun.issue] at next
    split at next
    · split at next
      · obtain ⟨s, hs, rfl⟩ := HostRun.advance_cases next; exact .quiet s hs
      · split at next
        · obtain ⟨s, hs, rfl⟩ := HostRun.advance_cases next
          exact .issued _ _ _ s (List.isEmpty_iff.1 ‹_›) ‹_› ‹_› hs
        · cases next
    · obtain ⟨s, hs, rfl⟩ := HostRun.advance_cases next; exact .quiet s hs

/-- An access that completes leaves the held ones as they are. -/
theorem Served.held {s t : State} {a : HostAccess} (h : Served s a t) : t.port.held = s.port.held := by
  cases h with
  | regRead => rfl
  | regWrite n x =>
    obtain ⟨o, ho⟩ := regWrite_eq_setOps n x s.endWindow
    rw [ho]
    rfl
  | refusedCommand => rfl
  | illegal => rfl
  | command w i _ ok good ran =>
    obtain r | ⟨_, _, rfl⟩ := exec_cases ran
    · rw [r.frame.2.2.2]; rfl
    · rfl
  | memRead => rfl
  | memWrite => rfl

end Sys2Proof.Machine
end

