-- ==== Sys2Proof/Laws/Run.lean ====
section
/-! SUPPORT. Runs of several steps, and the runs of the secret generator with the host quiet. -/

namespace Sys2Proof.Machine

theorem run_zero (s : State) : core.run 0 s = .next s := rfl

/-- A run of one more step starts with a step. -/
theorem run_succ {s t : State} (h : step s = .next t) (n : Nat) : core.run (n + 1) s = core.run n t := by
  have h' : core.step s = .next t := h
  simp only [Host.Core.run, h']

/-- A run that answers next goes on from where it got to. -/
theorem run_add {s t : State} {m : Nat} (h : core.run m s = .next t) (n : Nat) :
    core.run (m + n) s = core.run n t := by
  induction m generalizing s with
  | zero => cases h; rw [Nat.zero_add]
  | succ m ih =>
    rw [Nat.add_right_comm]
    cases hs : step s with
    | next s' => rw [run_succ hs] at h ⊢; exact ih h
    | fault r =>
      have h' : core.step s = .fault r := hs
      simp [Host.Core.run, h'] at h
    | refused r =>
      have h' : core.step s = .refused r := hs
      simp [Host.Core.run, h'] at h

/-- With no event listed a busy engine's step is a step of the generator. -/
theorem step_busy {s : State} (events : s.port.events = []) (busy : s.flags.busy = true) :
    step s = .next (genStep s) := by
  simp only [step, events, engineMove, busy, if_true]

/-- With no event and nothing held an idle engine stays as it is ("The engine never starts work by itself", R20). -/
theorem step_idle {s : State} (events : s.port.events = []) (busy : s.flags.busy = false) (held : s.port.held = []) :
    step s = .next s := by
  simp only [step, events, engineMove, busy, held, Bool.false_eq_true, if_false]

/-- The generator's step by phase. -/
theorem genStep_draw {s : State} (h : s.seq.gph = .draw) : genStep s = s.setSeq (genDraw s.params s.seq) := by
  simp only [genStep, h]

theorem genStep_odd {s : State} (h : s.seq.gph = .odd) : genStep s = s.setSeq (genOdd s.seq) := by
  simp only [genStep, h]

theorem genStep_ham {s : State} (h : s.seq.gph = .ham) : genStep s = s.setSeq (genHam s.res.gsec s.seq) := by
  simp only [genStep, h]

theorem genStep_accept {s : State} (h : s.seq.gph = .accept) : genStep s = s.storeWord.setSeq (genAccept s.seq) := by
  simp only [genStep, h]

theorem genStep_done {s : State} (h : s.seq.gph = .done) : genStep s = s.endGensec := by simp only [genStep, h]

/-- The oddness test (R215, R216). -/
theorem genOdd_reject {q : Sequencer} (h : oddOk q.cand = false) : genOdd q = q.nextCandidate := by
  simp only [genOdd, h, Bool.false_eq_true, if_false]

theorem genOdd_pass {q : Sequencer} (h : oddOk q.cand = true) : genOdd q = { q with gk := 0, gph := .ham } := by
  simp only [genOdd, h, if_true]

/-- The distance test (R215, R216). -/
theorem genHam_end (gsec : Secret) {q : Sequencer} (h : q.gk.toNat = q.gi.toNat) :
    genHam gsec q = { q with gph := .accept } := by simp only [genHam, h, if_true]

theorem genHam_pass {gsec : Secret} {q : Sequencer} (h : q.gk.toNat ≠ q.gi.toNat)
    (d : halfDistance q.cand (gsec.get q.gk.toNat) = true) : genHam gsec q = { q with gk := q.gk + 1 } := by
  simp only [genHam, h, d, if_true, if_false]

theorem genHam_reject {gsec : Secret} {q : Sequencer} (h : q.gk.toNat ≠ q.gi.toNat)
    (d : halfDistance q.cand (gsec.get q.gk.toNat) = false) : genHam gsec q = q.nextCandidate := by
  simp only [genHam, h, d, Bool.false_eq_true, if_false]

/-- A drawn byte is an entry of the table. -/
theorem genByte_mem (p : Params) (v : Variant) (g : Word) : genByte p v g ∈ p.genTable.toList := by
  simp [genByte]

end Sys2Proof.Machine
end

