-- ==== Sys2Proof/Laws/Stream.lean ====
section
/-! SUPPORT. The loops of the datapath as counts, and the buffer copies as slices: what HASH, WRITE and FINISH proofs cite
instead of unfolding the loops. -/

namespace Sys2Proof.Machine

variable (v : Variant) (k : Secret)

/-! ### Counts -/

theorem tailLength_le (n : Nat) : tailLength n ≤ 48 := by unfold tailLength; omega

theorem tailLength_pos {n : Nat} (h : 0 < n) : 0 < tailLength n := by unfold tailLength; omega

theorem tailLength_of_le {n : Nat} (h : n ≤ 48) : tailLength n = n := by unfold tailLength; omega

/-- The tail and the folded blocks make up the whole length. -/
theorem tailLength_add (n : Nat) : tailLength n + 48 * ((n - 1) / 48) = n := by unfold tailLength; omega

/-! ### Little-endian reads over slices -/

theorem le64_take {m : List Byte} {o n : Nat} (h : o + 8 ≤ n) : le64 (m.take n) o = le64 m o := by
  simp only [le64, List.drop_take, List.take_take]
  rw [Nat.min_eq_left (by omega)]

theorem le64_drop (m : List Byte) (a o : Nat) : le64 (m.drop a) o = le64 m (a + o) := by
  simp only [le64, List.drop_drop]

theorem le64_append {m c : List Byte} {o : Nat} (h : o + 8 ≤ m.length) : le64 (m ++ c) o = le64 m o := by
  simp only [le64]
  rw [List.drop_append_of_le_length (by omega), List.take_append_of_le_length (by simp; omega)]

/-! ### Blocks -/

/-- One more block, as the model folds it: the 48 bytes from `48j` (R160). -/
theorem lanesAfter_succ (l : Lanes) (m : List Byte) (j : Nat) :
    lanesAfter v k l m (j + 1) = block48 v k (lanesAfter v k l m j) ((m.drop (48 * j)).take 48) := by
  simp [lanesAfter, block48, le64_take, le64_drop]

theorem lanesAfter_one (l : Lanes) (m : List Byte) : lanesAfter v k l m 1 = block48 v k l (m.take 48) :=
  lanesAfter_succ v k l m 0

theorem lanesAfter_add (l : Lanes) (m : List Byte) (i j : Nat) :
    lanesAfter v k l m (i + j) = lanesAfter v k (lanesAfter v k l m i) (m.drop (48 * i)) j := by
  induction j with
  | zero => rfl
  | succ j ih => rw [← Nat.add_assoc, lanesAfter_succ, lanesAfter_succ, ih, List.drop_drop, Nat.mul_add]

/-- Blocks that lie inside `m` do not see what follows it. -/
theorem lanesAfter_append (l : Lanes) (m c : List Byte) {j : Nat} (h : 48 * j ≤ m.length) :
    lanesAfter v k l (m ++ c) j = lanesAfter v k l m j := by
  induction j with
  | zero => rfl
  | succ j ih =>
    rw [lanesAfter_succ, lanesAfter_succ, ih (by omega), List.drop_append_of_le_length (by omega),
      List.take_append_of_le_length (by simp; omega)]

/-- The block loop folds `(n-1) div 48` blocks and leaves the rest (R161). -/
theorem blockLoop_eq (fuel : Nat) (l : Lanes) (m : List Byte) (h : m.length ≤ fuel) :
    blockLoop v k fuel l m = (lanesAfter v k l m ((m.length - 1) / 48), m.drop (48 * ((m.length - 1) / 48))) := by
  induction fuel generalizing l m with
  | zero => simp_all [blockLoop, lanesAfter]
  | succ fuel ih =>
    rw [blockLoop]
    split
    · rename_i hm
      rw [ih _ _ (by simp; omega)]
      have e : (m.length - 1) / 48 = 1 + ((m.drop 48).length - 1) / 48 := by simp; omega
      rw [e, lanesAfter_add, Nat.mul_add, ← List.drop_drop]
      simp [lanesAfter_one]
    · have e : (m.length - 1) / 48 = 0 := by omega
      simp [e, lanesAfter]

/-- One more round, as the model runs it (R158). -/
theorem seedAfter_succ (s : Word) (m : List Byte) (o j : Nat) :
    seedAfter v k s m o (j + 1) =
      round16 v k (seedAfter v k s m o j) (le64 m (o + 16 * j)) (le64 m (o + 16 * j + 8)) := rfl

theorem seedAfter_succ' (s : Word) (m : List Byte) (o j : Nat) :
    seedAfter v k s m o (j + 1) = seedAfter v k (round16 v k s (le64 m o) (le64 m (o + 8))) m (o + 16) j := by
  induction j with
  | zero => rfl
  | succ j ih => rw [seedAfter_succ, ih, seedAfter_succ]; ring_nf

theorem seedAfter_drop (s : Word) (m : List Byte) (a o j : Nat) :
    seedAfter v k s (m.drop a) o j = seedAfter v k s m (a + o) j := by
  induction j with
  | zero => rfl
  | succ j ih => simp only [seedAfter, ih, le64_drop, Nat.add_assoc]

/-- The round loop runs `(i-1) div 16` rounds (R159). -/
theorem roundLoop_eq (fuel : Nat) (s : Word) (m : List Byte) (h : m.length ≤ fuel) :
    roundLoop v k fuel s m = seedAfter v k s m 0 ((m.length - 1) / 16) := by
  induction fuel generalizing s m with
  | zero => simp_all [roundLoop, seedAfter]
  | succ fuel ih =>
    rw [roundLoop]
    split
    · rename_i hm
      rw [ih _ _ (by simp; omega)]
      have e : (m.length - 1) / 16 = ((m.drop 16).length - 1) / 16 + 1 := by simp; omega
      rw [e, seedAfter_succ', seedAfter_drop]
    · have e : (m.length - 1) / 16 = 0 := by omega
      simp [e, seedAfter]

/-! ### The buffer -/

theorem bufCopy_toList (b : Vector Byte 48) (off : Nat) (c : List Byte) :
    (bufCopy b off c).toList = b.toList.take off ++ (c.take (48 - off) ++ b.toList.drop (off + c.length)) := rfl

/-- An empty copy changes nothing. -/
theorem bufCopy_nil (b : Vector Byte 48) (off : Nat) : bufCopy b off [] = b := by
  apply Vector.toList_inj.1
  simp [bufCopy_toList]

/-- Below the copied bytes the buffer keeps its own. -/
theorem bufCopy_take (b : Vector Byte 48) {off n : Nat} (c : List Byte) (h : n ≤ off) (h' : off ≤ 48) :
    (bufCopy b off c).toList.take n = b.toList.take n := by
  rw [bufCopy_toList, List.take_append_of_le_length (by simp; omega), List.take_take, Nat.min_eq_left h]

/-- The bytes below the end of the copied ones: the buffer's own, then the copied ones. -/
theorem bufCopy_take_end (b : Vector Byte 48) {off : Nat} (c : List Byte) (h : off + c.length ≤ 48) :
    (bufCopy b off c).toList.take (off + c.length) = b.toList.take off ++ c := by
  rw [bufCopy_toList, ← List.append_assoc, List.take_of_length_le (l := c) (by omega)]
  exact List.take_left' (by simp; omega)

/-- Above the copied bytes the buffer keeps its own. -/
theorem bufCopy_drop (b : Vector Byte 48) {off n : Nat} (c : List Byte) (h : off + c.length ≤ n)
    (h' : off + c.length ≤ 48) : (bufCopy b off c).toList.drop n = b.toList.drop n := by
  have hl : (b.toList.take off ++ c).length = off + c.length := by simp; omega
  rw [bufCopy_toList, ← List.append_assoc, List.take_of_length_le (l := c) (by omega),
    List.drop_append, List.drop_of_length_le (by omega), hl, List.drop_drop, List.nil_append]
  congr 1
  omega

/-- A copy up to the very end of the buffer is the buffer's front and the copied bytes. -/
theorem bufCopy_full (b : Vector Byte 48) {off : Nat} (c : List Byte) (h : off + c.length = 48) :
    (bufCopy b off c).toList = b.toList.take off ++ c := by
  rw [bufCopy_toList, List.take_of_length_le (l := c) (by omega), List.drop_of_length_le (by simp; omega),
    List.append_nil]

/-- A second copy-back to BUF[32..48) hides the first. -/
theorem bufCopy_bufCopy_32 (b : Vector Byte 48) (x y : List Byte) (hy : y.length = 16) :
    bufCopy (bufCopy b 32 x) 32 y = bufCopy b 32 y := by
  apply Vector.toList_inj.1
  rw [bufCopy_full (bufCopy b 32 x) y (by omega), bufCopy_full b y (by omega), bufCopy_take _ _ (by omega) (by omega)]

/-- Step 2 of the overflow path: `(n-1) div 48` direct blocks, the last one's last 16 bytes in BUF[32..48), the rest of
the chunk left (R184). -/
theorem directLoop_eq (fuel : Nat) (l : Lanes) (b : Vector Byte 48) (m : List Byte) (h : m.length ≤ fuel) :
    directLoop v k fuel l b m =
      (lanesAfter v k l m ((m.length - 1) / 48),
       if (m.length - 1) / 48 = 0 then b
       else bufCopy b 32 ((m.drop (48 * ((m.length - 1) / 48) - 16)).take 16),
       m.drop (48 * ((m.length - 1) / 48))) := by
  induction fuel generalizing l b m with
  | zero => simp_all [directLoop, lanesAfter]
  | succ fuel ih =>
    rw [directLoop]
    split
    · rename_i hm
      obtain ⟨q, hq⟩ : ∃ q, (m.length - 48 - 1) / 48 = q := ⟨_, rfl⟩
      have e : (m.length - 1) / 48 = 1 + q := by omega
      rw [ih _ _ _ (by simp; omega), List.length_drop, hq, e, lanesAfter_add, if_neg (by omega : ¬ 1 + q = 0),
        Nat.mul_add, ← List.drop_drop]
      refine Prod.ext (by simp [lanesAfter_one]) (Prod.ext ?_ rfl)
      simp only
      split
      · rename_i h0; rw [h0]
      · rw [bufCopy_bufCopy_32 _ _ _ (by simp; omega), List.drop_drop]
        congr 3
        omega
    · have e : (m.length - 1) / 48 = 0 := by omega
      simp [e, lanesAfter]

end Sys2Proof.Machine
end

