-- ==== Sys2Proof/Machine/Pseudo.lean ====
section
/-! DEFINITION. The directive MEM (spec/30_encoding.md R103) and the pseudo-commands of R108, as the lines of a program they
stand for. They are no hardware commands and have no encoding of their own. -/

namespace Sys2Proof.Machine

/-- `MEM <addr>: <bytes>`: host writes placing the bytes "from `addr` upward" (R103). That each byte is a host access of
its own is the model's choice (log entry 23). A byte whose address passes 2^64-1 lies outside every message memory, so its
access stops as any other outside it does (log entry 10). -/
def mem (a : Nat) : List Byte → List Directive
  | [] => []
  | b :: bs => .place a b :: mem (a + 1) bs

/-- `ENGINE.v seed`. -/
def pseudoEngine (v : Variant) (seed : Value) : List Directive := [.wr .seedIn seed, .command (.initD v)]

/-- `ENGINE.S.v seed, s0, s1, s2, s3`. -/
def pseudoEngineS (v : Variant) (seed s0 s1 s2 s3 : Value) : List Directive :=
  [.wr .seedIn seed, .wr .secIn0 s0, .wr .secIn1 s1, .wr .secIn2 s2, .wr .secIn3 s3, .command (.initS v)]

/-- `HASHB ptr, len`. -/
def pseudoHashB (ptr len : Value) : List Directive := [.wr .ptr ptr, .wr .len len, .command .hash, .rd .digest none]

/-- `HASHS.v seed, ptr, len`. -/
def pseudoHashS (v : Variant) (seed ptr len : Value) : List Directive := pseudoEngine v seed ++ pseudoHashB ptr len

/-- `HASHSS.v seed, s0, s1, s2, s3, ptr, len`. -/
def pseudoHashSS (v : Variant) (seed s0 s1 s2 s3 ptr len : Value) : List Directive :=
  pseudoEngineS v seed s0 s1 s2 s3 ++ pseudoHashB ptr len

/-- `STREAM.v seed`. -/
def pseudoStream (v : Variant) (seed : Value) : List Directive := pseudoEngine v seed ++ [.command .sopen]

/-- `WRITEB ptr, len`. -/
def pseudoWriteB (ptr len : Value) : List Directive := [.wr .ptr ptr, .wr .len len, .command .write]

/-- `FINISHD`. -/
def pseudoFinishD : List Directive := [.command .finish, .rd .digest none]

/-- `SECRET.v seed`. -/
def pseudoSecret (v : Variant) (seed : Value) : List Directive :=
  [.wr .seedIn seed, .command (.gensec v), .rd .gsec0 none, .rd .gsec1 none, .rd .gsec2 none, .rd .gsec3 none]

end Sys2Proof.Machine
end

