-- ==== Sys2Proof/Tests/Slice0.lean ====
section
/-! SUPPORT. The model's own tests: the well-formedness smoke tests, command words written out bit by bit from
spec/30_encoding.md R91 to R95, one or two small tests per command with the expected values of the spec's worked
examples and of spec/95_test_vectors.md, and one witness per statement that has hypotheses. -/

namespace Sys2Proof.Tests

open Sys2Proof Sys2Proof.Machine

/-! ### Small states -/

/-- The reset state with operand registers. -/
def withOps (o : Operands) : State := { State.reset with ops := o }

/-- Operand registers with only OPA and OPB set. -/
def ab (a b : Word) : Operands := { State.reset.ops with opA := a, opB := b }

/-- An engine with the default secret and the working seed `w`, `bytes` in the message memory from address 0, PTR = 0
and LEN their number. -/
def engine (v : Variant) (w : Word) (bytes : List Byte) : State :=
  { State.reset with
    ctx := { var := v, k := defaultSecret, seed := w }
    flags := { State.reset.flags with initd := true }
    msg := Memory.writeBytes [] 0 bytes
    ops := { State.reset.ops with len := BitVec.ofNat 64 bytes.length } }

/-- The same with an open stream in the state `st`. -/
def stream (v : Variant) (st : StreamCtx) (w : Word) (bytes : List Byte) : State :=
  { engine v w bytes with stream := st, flags := { State.reset.flags with initd := true, svalid := true } }

/-- A state with the given events to come. -/
def coming (s : State) (es : List HostEvent) : State := s.setEvents es

/-- A command word arrives at CMD. -/
def cmd (i : Instr) : HostEvent := .access (.regWrite 0 (cmdValue i))

/-- A running GENSEC. -/
def generating (q : Sequencer) : State :=
  { State.reset with
    flags := { State.reset.flags with busy := true }
    seq := q
    port := { State.reset.port with during := some 1 } }

/-- A faulted engine. -/
def faulted : State := State.reset.raiseFault .noEngine 0x11

/-- Does the outcome answer a next state with the property? -/
def nextHas (o : Result) (p : State → Bool) : Bool :=
  match o with
  | .next t => p t
  | .fault _ => false
  | .refused _ => false

/-- A stream context at OFF = `off` and TLEN = `tlen` with the working seed `w` in its lanes. -/
def streamAt (w : Word) (off : BitVec 6) (tlen : Word) : StreamCtx :=
  { lanes := Lanes.all w, buf := Vector.replicate 48 0, off := off, tlen := tlen }

/-- `n` bytes of 0x00. -/
def zeros (n : Nat) : List Byte := List.replicate n 0

/-! ### Well-formedness: what the check refuses -/

theorem test_wf_commands : (Instr.mum .w32c).wellFormed ∧ Instr.hash.wellFormed ∧ (Instr.gensec .w64).wellFormed := by
  decide

theorem test_wf_memRead_width :
    (HostAccess.memRead 0 0).wellFormed recommendedParams = false ∧
    (HostAccess.memRead 0 9).wellFormed recommendedParams = false ∧
    (HostAccess.memRead 0 8).wellFormed recommendedParams = true := by decide

theorem test_wf_memWrite_range :
    (HostAccess.memWrite 9 8 0).wellFormed { recommendedParams with msgBytes := 16 } = false ∧
    (HostAccess.memWrite 8 8 0).wellFormed { recommendedParams with msgBytes := 16 } = true := by decide

theorem test_wf_params :
    recommendedParams.wellFormed = true ∧
    ({ recommendedParams with genInc := 2 } : Params).wellFormed = false ∧
    ({ recommendedParams with msgBytes := 2 ^ 64 + 1 } : Params).wellFormed = false := by decide

/-- A name no earlier line has bound, and one that an `RD` binds (R103). -/
theorem test_wf_program :
    programWellFormed [] [.wr .seedIn (.name "x"), .rd .res0 (some "x")] = false ∧
    programWellFormed [] [.rd .res0 (some "x"), .wr .seedIn (.name "x")] = true := by decide

/-- An ill-formed access is refused or faults; it never has an effect. -/
theorem test_illFormed_access_stops :
    serve (.memRead 0 0) State.reset = .refused .hostMemWidth ∧
    serve (.memWrite 0 9 1) State.reset = .refused .hostMemWidth ∧
    serve (.memRead 0xFFFFFFFFFFFFFFFF 2) State.reset = .fault .hostMemOutside := ⟨rfl, rfl, rfl⟩

/-! ### Decoding: words written out field by field, `zero ssel v op` (R91) -/

theorem test_decode_mum : decode (BitVec.setWidth 64 (0b00000000000000000000_00_11_00000001#32)) = .command (.mum .w32c) := by
  decide

theorem test_decode_mix : decode (BitVec.setWidth 64 (0b00000000000000000000_00_01_00000010#32)) = .command (.mix .w64c) := by
  decide

theorem test_decode_initD : decode (BitVec.setWidth 64 (0b00000000000000000000_00_10_00010000#32)) = .command (.initD .w32) := by
  decide

theorem test_decode_initS : decode (BitVec.setWidth 64 (0b00000000000000000000_01_10_00010000#32)) = .command (.initS .w32) := by
  decide

theorem test_decode_initG : decode (BitVec.setWidth 64 (0b00000000000000000000_10_01_00010000#32)) = .command (.initG .w64c) := by
  decide

theorem test_decode_hash : decode (BitVec.setWidth 64 (0b00000000000000000000_00_00_00010001#32)) = .command .hash := by
  decide

theorem test_decode_sopen : decode (BitVec.setWidth 64 (0b00000000000000000000_00_00_00100000#32)) = .command .sopen := by
  decide

theorem test_decode_write : decode (BitVec.setWidth 64 (0b00000000000000000000_00_00_00100001#32)) = .command .write := by
  decide

theorem test_decode_finish : decode (BitVec.setWidth 64 (0b00000000000000000000_00_00_00100010#32)) = .command .finish := by
  decide

theorem test_decode_gensec : decode (BitVec.setWidth 64 (0b00000000000000000000_00_11_00110000#32)) = .command (.gensec .w32c) := by
  decide

/-- Each way a value is illegal (R99, R100; the words of spec/95_test_vectors.md section 4.5). -/
theorem test_decode_illegal :
    decode 0x0 = .illegal .opcode ∧ decode 0x31 = .illegal .opcode ∧ decode 0x111 = .illegal .variantField ∧
    decode 0x420 = .illegal .secretSource ∧ decode 0xD10 = .illegal .secretSource ∧
    decode 0x80000011 = .illegal .zeroField ∧ decode 0x8000000000000001 = .illegal .highWord := by decide

theorem test_decodeTableWord : decodeTableWord 32 0x610 = some (.initS .w32) ∧ decodeTableWord 32 0xC10 = none := by decide

/-! ### MUM and MIX (spec/40_mulmix.md R127, R128; spec/95_test_vectors.md section 3.1) -/

theorem test_mum_w64c : nextHas (exec (.mum .w64c) (withOps (ab 2 3)))
    (fun t => t.res.res0 == 4 && t.res.res1 == 3) := by decide +kernel

theorem test_mum_w32 : nextHas (exec (.mum .w32) (withOps (ab 0x0123456789abcdef 0xfedcba9876543210)))
    (fun t => t.res.res0 == 0x34af8e702364aae1 && t.res.res1 == 0x92a793df6c6ea6a0) := by decide +kernel

theorem test_mix_w32c : nextHas (exec (.mix .w32c) (withOps (ab 2 3)))
    (fun t => t.res.res0 == 7 && t.res.res1 == 0) := by decide +kernel

theorem test_mix_w64 : nextHas (exec (.mix .w64) (withOps (ab 0xa0761d6478bd642f 0xe7037ed1a0b428db)))
    (fun t => t.res.res0 == 0x1ff5c2923a788d2c) := by decide +kernel

/-! ### INIT (spec/41_init.md R143 to R145; spec/95_test_vectors.md section 3.2) -/

theorem test_initD : nextHas (exec (.initD .w64) (withOps { State.reset.ops with seedIn := 1 }))
    (fun t => t.ctx.seed == 0x38f94c439ac36243 && statusWord t == 0x0002) := by decide +kernel

theorem test_initD_w32c : nextHas (exec (.initD .w32c) (withOps { State.reset.ops with seedIn := 0xdeadbeef }))
    (fun t => t.ctx.seed == 0xf3d9138f1fe09ecf && statusWord t == 0x3002) := by decide +kernel

theorem test_initS_w64 : nextHas
    (exec (.initS .w64) (withOps { State.reset.ops with seedIn := 0x10, secIn := ⟨1, 3, 5, 7⟩ }))
    (fun t => t.ctx.seed == 0x23 && t.ctx.k.w3 == 7) := by decide +kernel

theorem test_initS_w64c : nextHas
    (exec (.initS .w64c) (withOps { State.reset.ops with seedIn := 0x10, secIn := ⟨1, 3, 5, 7⟩ }))
    (fun t => t.ctx.seed == 0x31) := by decide +kernel

theorem test_initG : nextHas
    (exec (.initG .w64)
      { withOps { State.reset.ops with seedIn := 5 } with
        flags := { State.reset.flags with gvalid := true }
        res := { State.reset.res with
          gsec := ⟨0x95d49a959ca5a395, 0xb4a9716ac94da695, 0x5635cc6355956559, 0xe1e18e3a9c591da9⟩ } })
    (fun t => t.ctx.seed == 0x526dd9e94039de96) := by decide +kernel

theorem test_initG_noSecret : nextHas (exec (.initG .w64) State.reset)
    (fun t => statusWord t == 0x0410 && t.res.errInfo == 0x810) := by decide +kernel

/-! ### HASH (spec/95_test_vectors.md sections 1.1, 2.3) -/

theorem test_hash_abc : nextHas (exec .hash (engine .w64 0x51fecf31f98f3b6a [0x61, 0x62, 0x63]))
    (fun t => t.res.digest == 0x32dd92e4b2915153) := by decide +kernel

theorem test_hash_ramp49 : nextHas
    (exec .hash (engine .w64 0x1ff5c2923a788d2c ((List.range 49).map (BitVec.ofNat 8))))
    (fun t => t.res.digest == 0xdd118c769fb13542) := by decide +kernel

/-! ### The stream (spec/95_test_vectors.md sections 4.1, 4.3, 4.6) -/

theorem test_sopen : nextHas (exec .sopen (engine .w64 0x1ff5c2923a788d2c []))
    (fun t => statusWord t == 0x0026 && t.stream.lanes.s2 == 0x1ff5c2923a788d2c) := by decide +kernel

theorem test_sopen_noEngine : nextHas (exec .sopen State.reset)
    (fun t => statusWord t == 0x0210 && t.res.errInfo == 0x20) := by decide +kernel

/-- The 49th zero byte folds the buffer. -/
theorem test_write_folds : nextHas
    (exec .write (stream .w64 (streamAt 0x1ff5c2923a788d2c 48 48) 0x1ff5c2923a788d2c [0]))
    (fun t => t.stream.off == 1 && t.stream.tlen == 49 &&
      t.stream.lanes == ⟨0x42bc986dc5eec4d3, 0xa5506ff52926ac13, 0x9c268340cd8bc1fe⟩) := by decide +kernel

/-- TLEN at its last value: one more byte overflows (R235). -/
theorem test_write_overflow : nextHas
    (exec .write (stream .w64 (streamAt 0 15 0xFFFFFFFFFFFFFFFF) 0 [0]))
    (fun t => t.flags.err == .lenOverflow && t.stream.off == 15) := by decide +kernel

theorem test_finish_zeros48 : nextHas
    (exec .finish (stream .w64 (streamAt 0x1ff5c2923a788d2c 48 48) 0x1ff5c2923a788d2c []))
    (fun t => t.res.digest == 0xfb698ae6ce07e472) := by decide +kernel

/-- The window that reaches back into the folded block, and merged lanes. -/
theorem test_finish_zeros49 : nextHas
    (exec .finish (stream .w64
      { streamAt 0 1 49 with lanes := ⟨0x42bc986dc5eec4d3, 0xa5506ff52926ac13, 0x9c268340cd8bc1fe⟩ }
      0x1ff5c2923a788d2c []))
    (fun t => t.res.digest == 0x918e6c61ec2fed66) := by decide +kernel

/-! ### GENSEC (spec/44_secretgen.md R220) -/

/-- The first byte drawn. -/
theorem test_gensec_draw : nextHas (exec (.gensec .w64) State.reset)
    (fun t => (genStep t).seq.g == 0xa0761d6478bd642f && (genStep t).seq.cand == 0x95 && t.flags.busy) := by
  decide +kernel

/-- The first candidate word and the counter after its eight draws. -/
theorem test_gensec_word : drawWord recommendedParams .w64 0 = (0x95d49a959ca5a395, 0x03b0eb23c5eb2178) := by
  decide +kernel

/-! ### Faults and the port (spec/95_test_vectors.md section 4.6; spec/10_state.md R46) -/

theorem test_illegal_command : nextHas (step (coming State.reset [.access (.regWrite 0 0)]))
    (fun t => statusWord t == 0x0110 && t.res.errInfo == 0) := by decide +kernel

theorem test_faulted_refuses : nextHas (step (coming faulted [cmd (.initD .w64)]))
    (fun t => statusWord t == 0x0210 && t.res.errInfo == 0x11) := by decide +kernel

theorem test_reserved_register_reads_zero : nextHas (step (coming faulted [.access (.regRead 0x0F)]))
    (fun t => t.port.replies == [0]) := by decide +kernel

/-! ### Programs (spec/30_encoding.md R103; spec/95_test_vectors.md section 5) -/

/-- Does the run end in a state with the property? -/
def runHas (o : RunResult) (p : HostRun → Bool) : Bool :=
  match o with
  | .next h => p h
  | .fault _ => false
  | .refused _ => false

/-- A STATUS read behind a held GSEC0 read is issued only when that one has completed, and so after the GENSEC has
ended: it reads `0x0008`, not `0x0001` (section 5.3). -/
theorem test_program_status_waits : runHas
    (HostRun.run (List.replicate 4 .issue)
      (HostRun.start (generating { State.reset.seq with gph := .done }) [.rd .gsec0 none, .rd .status none]))
    (fun h => h.engine.port.replies == [8, 0] && h.lines.isEmpty) := by decide +kernel

/-- A name bound by an `RD` is a value of a later `WR`. -/
theorem test_program_names : runHas
    (HostRun.run (List.replicate 3 .issue)
      (HostRun.start (withOps (ab 5 0)) [.rd .opA (some "x"), .wr .opB (.name "x"), .rd .opB none]))
    (fun h => h.engine.ops.opB == 5 && h.engine.port.replies == [5, 5]) := by decide +kernel

/-- Two bytes of a MEM line at the last address: the second lies past 2^64-1 and stops; an unbound name is refused. -/
theorem test_program_stops :
    HostRun.run [.issue, .issue] (HostRun.start State.reset (mem 0xFFFFFFFFFFFFFFFF [1, 2])) = .fault .hostMemOutside ∧
    HostRun.run [.issue] (HostRun.start State.reset [.wr .ptr (.name "x")]) = .refused .unboundName := ⟨rfl, rfl⟩

/-- The next thing to happen is an access, so no reset. -/
theorem no_reset_next (s : State) (a : HostAccess) : ¬ resetNext (coming s [.access a]) := fun ⟨_, h⟩ => by cases h

/-! ### Witnesses: for every statement with hypotheses, a state and operands that meet all of them -/

theorem witness_StepExecutesTheDecodedCommand :
    decode 0x011 = .command .hash ∧ State.reset.flags.busy = false ∧ State.reset.flags.fault = false ∧
    (coming State.reset [.access (.regWrite 0 0x011)]).port.events = .access (.regWrite 0 0x011) :: [] ∧
    (coming State.reset [.access (.regWrite 0 0x011)]).port.held = [] ∧
    (State.reset.setHeld [.regWrite 0 0x011]).port.held = .regWrite 0 0x011 :: [] ∧
    (State.reset.setHeld [.regWrite 0 0x011]).port.events = [] ∧
    (coming (State.reset.setHeld [.regWrite 0 0x011]) [.quiet]).port.events = .quiet :: [] := by decide

theorem witness_StepExecutesTheFetchWord :
    decodeTableWord 32 0x320 = none ∧ decodeTableWord 32 0x330 = some (.gensec .w32c) ∧
    State.reset.flags.busy = false ∧ State.reset.flags.fault = false ∧ State.reset.port.held = [] := by decide

theorem witness_IllegalValueFaults :
    decode 0x8000000000000001 = .illegal .highWord ∧ State.reset.flags.busy = false ∧
    State.reset.flags.fault = false ∧ State.reset.port.held = [] ∧
    (coming State.reset [.access (.regWrite 0 0x8000000000000001)]).port.events =
      [.access (.regWrite 0 0x8000000000000001)] := by decide

theorem witness_FaultedEngineRefusesCommands :
    (coming faulted [cmd .hash]).flags.fault = true ∧ (coming faulted [cmd .hash]).flags.busy = false ∧
    (coming faulted [cmd .hash]).port.held = [] ∧
    (coming faulted [cmd .hash]).port.events = .access (.regWrite 0 0x11) :: [] := by decide

theorem witness_BusyEngineHoldsAccesses :
    (coming (generating { State.reset.seq with gph := .draw }) [.access (.regRead 2)]).flags.busy = true ∧
    (HostAccess.regRead 2) ≠ .regRead 1 ∧
    (coming (generating { State.reset.seq with gph := .draw }) [.access (.regRead 2)]).port.events =
      .access (.regRead 2) :: [] := by decide

theorem witness_StatusReadAlwaysCompletes :
    (coming State.reset [.access (.regRead 1)]).port.events = .access (.regRead 1) :: [] ∧
    State.reset.flags.busy = false ∧
    (generating { State.reset.seq with gph := .ham }).flags.busy = true ∧
    (generating { State.reset.seq with gph := .ham }).port.during = some 1 := by decide

/-- Each form of the statement's first part, and a turn that executes a line whose access is then held. -/
theorem witness_HeldAccessesCompleteInOrder :
    let s := State.reset.setHeld [.regRead 0x0E, .regWrite 0 0x11]
    let h := HostRun.start (generating { State.reset.seq with gph := .draw }) [.rd .res0 none, .rd .status none]
    State.reset.flags.busy = false ∧ State.reset.port.events = [] ∧ State.reset.port.held = [] ∧
    (coming State.reset [.quiet]).port.events = .quiet :: [] ∧ (coming State.reset [.quiet]).port.held = [] ∧
    s.port.held = .regRead 0x0E :: [.regWrite 0 0x11] ∧ s.port.events = [] ∧
    (coming s [.quiet]).port.events = .quiet :: [] ∧
    (coming s [.access (.regRead 2)]).port.events = .access (.regRead 2) :: [] ∧ (HostAccess.regRead 2) ≠ .regRead 1 ∧
    s.flags.busy = false ∧ h.engine.port.held.length ≤ 1 ∧
    ∃ h', h.turn .issue = .next h' ∧ h'.lines ≠ h.lines ∧ h'.engine.port.held ≠ [] :=
  ⟨rfl, rfl, rfl, rfl, rfl, rfl, rfl, rfl, rfl, by decide, rfl, by decide, _, rfl, by decide, by decide⟩

/-- After a MUM, a STATUS read that landed during it: the hypotheses of the statement, and the answer. -/
theorem witness_StatusReadDuringCommandShowsOldFlags : ∃ t u,
    exec (.mum .w64) (coming State.reset [.statusDuring]) = .next t ∧ t.flags.fault = false ∧
    t.port.events = .statusDuring :: [] ∧ step t = .next u ∧ u.port.replies = [1] :=
  ⟨_, _, rfl, by decide, rfl, rfl, by decide +kernel⟩

theorem witness_ResetTakesEffectInAnyState :
    (coming (generating { State.reset.seq with gph := .draw }) [.reset]).port.events = .reset :: [] := by decide

theorem witness_InitGenerated :
    ({ State.reset with flags := { State.reset.flags with gvalid := true } } : State).flags.gvalid = true := by decide

/-- An empty chunk at the very end of the message memory, and a chunk that ends there. -/
theorem witness_HashWritesTheDigest :
    (engine .w64 0 []).flags.initd = true ∧
    2 ^ 64 - 1 + (engine .w64 0 [7]).ops.len.toNat = (engine .w64 0 [7]).params.msgBytes ∧
    (engine .w64 0 []).ops.ptr.toNat + (engine .w64 0 []).ops.len.toNat ≤ (engine .w64 0 []).params.msgBytes := by
  decide +kernel

theorem witness_ShortRegimes :
    ([1, 2, 3, 4] : List Byte) = [1, 2, 3, 4] ++ [] ∧ ([1, 2, 3, 4, 5, 6, 7] : List Byte).drop (7 - 4) = [4, 5, 6, 7] ∧
    ([1, 2, 3, 4, 5, 6, 7, 8] : List Byte) = [1, 2, 3, 4] ++ [5, 6, 7, 8] ++ [] ∧
    (zeros 16).drop (16 - 8) = zeros 8 ∧ (zeros 4 ++ zeros 4 ++ zeros 8).length = 16 := by decide

theorem witness_EveryReadIsInRange : (streamAt 0 48 48).off.toNat ≤ 48 ∧ (streamAt 0 0 0).off.toNat ≤ 48 := by decide

theorem witness_SopenStartsAnEmptyStream : (engine .w32 5 []).flags.initd = true := by decide

/-- The boundary: the chunk that brings TLEN to its last value. -/
theorem witness_WriteChangesOnlyTheStream :
    (stream .w64 (streamAt 0 14 0xFFFFFFFFFFFFFFFE) 0 [9]).flags.svalid = true ∧
    (stream .w64 (streamAt 0 14 0xFFFFFFFFFFFFFFFE) 0 [9]).ops.ptr.toNat +
      (stream .w64 (streamAt 0 14 0xFFFFFFFFFFFFFFFE) 0 [9]).ops.len.toNat ≤
      (stream .w64 (streamAt 0 14 0xFFFFFFFFFFFFFFFE) 0 [9]).params.msgBytes ∧
    (stream .w64 (streamAt 0 14 0xFFFFFFFFFFFFFFFE) 0 [9]).stream.tlen.toNat +
      (stream .w64 (streamAt 0 14 0xFFFFFFFFFFFFFFFE) 0 [9]).ops.len.toNat = 2 ^ 64 - 1 := by decide +kernel

/-- A chunk that fills the buffer exactly; an index inside it, and one on either side. -/
theorem witness_FittingChunkIsAppended :
    (streamAt 0 46 46).off.toNat + [1, (2 : Byte)].length = 48 ∧ (streamAt 0 46 46).off.toNat ≤ 47 ∧
    45 < (streamAt 0 46 46).off.toNat ∧ (streamAt 0 3 3).off.toNat + [1, (2 : Byte)].length ≤ 5 := by decide

theorem witness_EmptyChunkChangesNothing : (streamAt 0 48 48).off.toNat ≤ 48 := by decide

/-- One byte too many (a tail of 1 byte, so the window reaches back), and a tail of exactly 16. -/
theorem witness_OverflowingChunkIsFolded :
    (streamAt 0 48 48).off.toNat ≤ 48 ∧ 48 < (streamAt 0 48 48).off.toNat + (zeros 1).length ∧
    (streamWrite .w64 defaultSecret (streamAt 0 48 48) (zeros 1)).off.toNat < 16 ∧
    (streamWrite .w64 defaultSecret (streamAt 0 48 48) (zeros 16)).off.toNat = 16 := by decide +kernel

theorem witness_Finish : (stream .w32c (streamAt 0 0 0) 0 []).flags.svalid = true := by decide

theorem witness_FinishIsIdempotent : ∃ t u, (stream .w64 (streamAt 3 0 0) 3 []).flags.svalid = true ∧
    exec .finish (stream .w64 (streamAt 3 0 0) 3 []) = .next t ∧ exec .finish t = .next u :=
  ⟨_, _, rfl, rfl, rfl⟩

/-- The empty stream stands for the empty message, and a message of one byte still fits. -/
theorem witness_WriteExtendsTheMessage :
    StreamOf .w64 defaultSecret 5 [] (emptyStream 5) ∧ ([] : List Byte).length + [(7 : Byte)].length < 2 ^ 64 :=
  ⟨⟨rfl, rfl, rfl, rfl, by decide⟩, by decide⟩

/-- An open empty stream, a WRITE about to complete. -/
theorem witness_EveryStepKeepsTheStreamMessage : ∃ t,
    StreamHolds (coming (stream .w64 (emptyStream 5) 5 [7]) [cmd .write]) [] ∧
    step (coming (stream .w64 (emptyStream 5) 5 [7]) [cmd .write]) = .next t ∧ t.flags.svalid = true ∧
    t.stream.tlen = 1 :=
  ⟨_, fun _ => ⟨rfl, rfl, rfl, rfl, by decide⟩, rfl, by decide +kernel, by decide +kernel⟩

theorem witness_FinishEqualsTheOneShotHash :
    (stream .w64 (emptyStream 5) 5 []).flags.svalid = true ∧ StreamHolds (stream .w64 (emptyStream 5) 5 []) [] :=
  ⟨rfl, fun _ => ⟨rfl, rfl, rfl, rfl, by decide⟩⟩

theorem witness_StreamingEqualsOneShot : ([zeros 33, [], zeros 33] : List (List Byte)).flatten.length < 2 ^ 64 := by
  decide

/-- Two contexts that differ in a dead byte: 4 bytes wait, the 16 before them were folded, BUF[10] is dead. -/
theorem witness_DeadBufferBytesDoNotMatter :
    let a := streamAt 1 4 52
    let b : StreamCtx := { a with buf := a.buf.set 10 7 }
    SameLive a b ∧ a ≠ b ∧ a.off.toNat = tailLength a.tlen.toNat ∧
    a.tlen.toNat + ([zeros 2] : List (List Byte)).flatten.length < 2 ^ 64 :=
  ⟨⟨rfl, rfl, rfl, by decide, fun _ _ => by decide⟩, by decide, by decide, by decide⟩

theorem witness_GeneratorPhases :
    (generating { State.reset.seq with gph := .draw }).flags.busy = true ∧
    (generating { State.reset.seq with gph := .draw }).port.events = [] ∧
    (∃ rest, (coming (generating { State.reset.seq with gph := .draw }) [.quiet]).port.events = .quiet :: rest) ∧
    (generating { State.reset.seq with gph := .draw }).seq.gph = .draw ∧
    (generating { State.reset.seq with gph := .odd, cand := 2 }).seq.cand.getLsbD 0 = false ∧
    (generating { State.reset.seq with gph := .odd, cand := 3 }).seq.cand.getLsbD 0 = true ∧
    (generating { State.reset.seq with gph := .ham }).seq.gk.toNat =
      (generating { State.reset.seq with gph := .ham }).seq.gi.toNat ∧
    popcount ((generating { State.reset.seq with gph := .ham, gi := 1, cand := 0x00000000ffffffff }).seq.cand ^^^
      (generating { State.reset.seq with gph := .ham, gi := 1 }).res.gsec.get 0) = 32 ∧
    popcount ((generating { State.reset.seq with gph := .ham, gi := 1, cand := 1 }).seq.cand ^^^
      (generating { State.reset.seq with gph := .ham, gi := 1 }).res.gsec.get 0) ≠ 32 ∧
    (generating { State.reset.seq with gph := .accept, gi := 3 }).seq.gi + 1 = 4 ∧
    (generating { State.reset.seq with gph := .done }).seq.gph = .done :=
  ⟨rfl, rfl, ⟨_, rfl⟩, by decide +kernel⟩

/-- The row `0x1`, W64 of spec/95_test_vectors.md section 4.4: 624 draws are 78 candidates. -/
theorem witness_GensecComputesTheFunction :
    let s := withOps { State.reset.ops with seedIn := 1 }
    s.port.events = [] ∧ s.port.held = [] ∧
    exec (.gensec .w64) s = .next (s.startCommand.startGensec .w64) ∧
    genSecret s.params .w64 78 s.ops.seedIn =
      some [0x8b66d82b5ccaac2b, 0xf08d3cc98ecae895, 0x72b4c64e6a1dcc27, 0x1ee1c995c9c9d187] :=
  ⟨rfl, rfl, rfl, by decide +kernel⟩

theorem witness_GeneratedSecretIsValid : ∃ ws, genSecret recommendedParams .w64 78 1 = some ws :=
  ⟨_, witness_GensecComputesTheFunction.2.2.2⟩

/-- A table with no odd entry. -/
theorem witness_EvenTableHangsTheGenerator :
    let p : Params := { recommendedParams with genTable := Vector.replicate 70 2 }
    ({ State.reset with params := p } : State).port.events = [] ∧
    (∀ b ∈ p.genTable.toList, b.getLsbD 0 = false) ∧
    exec (.gensec .w64) { State.reset with params := p } =
      .next (({ State.reset with params := p } : State).startCommand.startGensec .w64) :=
  ⟨rfl, by decide, rfl⟩

theorem witness_UseBeforeWriteFaults :
    State.reset.flags.initd = false ∧ State.reset.flags.svalid = false ∧ State.reset.flags.gvalid = false := by decide

/-- One byte past the end, the length the integer sum catches, and the total length one above its last value. -/
theorem witness_ChunkFaults :
    let s := stream .w64 (streamAt 0 15 0xFFFFFFFFFFFFFFFF) 0 [9]
    let far : State := { s with ops := { s.ops with ptr := 0xFFFFFFFFFFFFFFFF, len := 2 } }
    s.flags.initd = true ∧ s.flags.svalid = true ∧
    s.ops.ptr.toNat + s.ops.len.toNat ≤ s.params.msgBytes ∧
    2 ^ 64 - 1 < s.stream.tlen.toNat + s.ops.len.toNat ∧ far.flags.initd = true ∧ far.flags.svalid = true ∧
    far.params.msgBytes + 1 = far.ops.ptr.toNat + far.ops.len.toNat := by decide +kernel

theorem witness_FaultIsStickyUntilReset : ∃ t, faulted.flags.fault = true ∧ faulted.flags.busy = false ∧
    ¬ resetNext (coming faulted [cmd .hash]) ∧ step (coming faulted [cmd .hash]) = .next t :=
  ⟨_, rfl, rfl, no_reset_next _ _, rfl⟩

theorem witness_RegisterReads :
    State.reset.flags.busy = false ∧ State.reset.port.held = [] ∧
    (coming State.reset [.access (.regRead 0x13)]).port.events = .access (.regRead 0x13) :: [] ∧
    (coming State.reset [.access (.regRead 0x14)]).port.events = .access (.regRead 0x14) :: [] ∧
    (HostRun.start State.reset [.rd .digest (some "d")]).lines = .rd .digest (some "d") :: [] := by decide

theorem witness_RegisterWrites :
    let h : HostRun := { HostRun.start State.reset [.wr .seedIn (.name "d")] with names := [("d", 7)] }
    (0x03 : Nat) ≠ 0 ∧ State.reset.flags.busy = false ∧ State.reset.port.held = [] ∧
    (coming faulted [.access (.regWrite 0x0B 1)]).port.events = .access (.regWrite 0x0B 1) :: [] ∧
    h.engine.port.held = [] ∧ h.names = ("d", 7) :: [] ∧ h.lines = .wr .seedIn (.name "d") :: [] ∧
    ∃ s, step (h.engine.setEvents (.access (.regWrite HostReg.seedIn.num 7) :: h.engine.port.events)) = .next s ∧
      s.ops.seedIn = 7 :=
  ⟨by decide, rfl, rfl, rfl, rfl, rfl, rfl, _, rfl, by decide⟩

/-- A write of 8 bytes up to the very end of the message memory. -/
theorem witness_HostMemoryWrites :
    State.reset.msg.wf ∧ (1 : Nat) ≤ 8 ∧ (8 : Nat) ≤ 8 ∧
    0xFFFFFFFFFFFFFFF8 + 8 = State.reset.params.msgBytes ∧ State.reset.flags.busy = false ∧
    State.reset.port.held = [] ∧
    (coming State.reset [.access (.memWrite 0xFFFFFFFFFFFFFFF8 8 1)]).port.events =
      .access (.memWrite 0xFFFFFFFFFFFFFFF8 8 1) :: [] := by decide +kernel

/-- The last byte of the message memory, the byte after it, and the widths 0 and 9. -/
theorem witness_HostMemoryReads :
    State.reset.flags.busy = false ∧ State.reset.port.held = [] ∧
    0xFFFFFFFFFFFFFFFF + 1 = State.reset.params.msgBytes ∧
    State.reset.params.msgBytes < 0xFFFFFFFFFFFFFFFF + 2 ∧ State.reset.params.msgBytes < 2 ^ 64 + 1 ∧
    (coming State.reset [.access (.memRead 0xFFFFFFFFFFFFFFFF 2)]).port.events =
      .access (.memRead 0xFFFFFFFFFFFFFFFF 2) :: [] ∧
    (coming State.reset [.access (.memWrite 5 9 0)]).port.events = .access (.memWrite 5 9 0) :: [] := by decide +kernel

/-- Two states that agree on what the statement names and differ in K, SEED and OFF. -/
theorem witness_InternalRegistersAreUnreadable :
    let s := engine .w64 1 []
    let t : State := { s with ctx := { s.ctx with k := Secret.zero, seed := 2 }, stream := streamAt 1 5 0 }
    s.flags = t.flags ∧ s.ops = t.ops ∧ s.res = t.res ∧ s.ctx.var = t.ctx.var ∧ s.port.during = t.port.during ∧
    (s.stream.tlen = 0 ↔ t.stream.tlen = 0) ∧ s ≠ t := by decide

/-- A step with no reset in which the register of each clause changes. -/
theorem witness_OnlyItsCommandsWriteARegister : ∃ t u w x y,
    ¬ resetNext (coming State.reset [cmd (.initD .w64)]) ∧
    step (coming State.reset [cmd (.initD .w64)]) = .next t ∧ t.ctx ≠ State.reset.ctx ∧
    step (coming (engine .w64 5 [9]) [cmd .sopen]) = .next u ∧ u.stream ≠ (engine .w64 5 [9]).stream ∧
    step (coming (engine .w64 5 [9]) [cmd .hash]) = .next w ∧ w.res.digest ≠ (engine .w64 5 [9]).res.digest ∧
    step (coming (withOps (ab 2 3)) [cmd (.mum .w64c)]) = .next x ∧ x.res.res0 ≠ State.reset.res.res0 ∧
    x.res.res1 ≠ State.reset.res.res1 ∧
    ¬ resetNext (generating { State.reset.seq with gph := .accept, cand := 3 }) ∧
    step (generating { State.reset.seq with gph := .accept, cand := 3 }) = .next y ∧
    y.res.gsec ≠ State.reset.res.gsec :=
  ⟨_, _, _, _, _, no_reset_next _ _, rfl, by decide +kernel, rfl, by decide +kernel, rfl, by decide +kernel, rfl,
    by decide +kernel, by decide +kernel, fun ⟨_, h⟩ => by (cases h), rfl, by decide⟩

/-- A step that executes a command, and one of the running generator that stores a word. -/
theorem witness_TheEngineNeverWritesMemory : ∃ t u,
    step (coming (engine .w64 5 [9]) [cmd .hash]) = .next t ∧
    commandOf (coming (engine .w64 5 [9]) [cmd .hash]) = some .hash ∧
    step (generating { State.reset.seq with gph := .accept, cand := 3 }) = .next u ∧
    (generating { State.reset.seq with gph := .accept, cand := 3 }).flags.busy = true ∧ u.res.gsec.w0 = 3 :=
  ⟨_, _, rfl, by decide, rfl, rfl, by decide⟩

/-- An open stream and a WRITE about to run: the invariant holds and the step answers. -/
theorem witness_EveryStepKeepsTheInvariant : ∃ t,
    Invariant (coming (stream .w64 (emptyStream 5) 5 [7]) [cmd .write]) ∧
    step (coming (stream .w64 (emptyStream 5) 5 [7]) [cmd .write]) = .next t :=
  ⟨_,
    { msgWf := by decide, msgWithin := by decide +kernel, offBound := by decide, offTail := fun _ => rfl,
      streamEngine := fun _ => rfl, busyPhase := by decide, busyView := by decide, faultIdle := by decide,
      faultCode := by decide, faultInfo := fun _ => rfl, busyInvalid := fun _ => rfl,
      gsecValid := fun h => by (cases h), accepted := fun h => by (cases h), drawing := fun h => by (cases h),
      testingOdd := fun h => by (cases h), testingHam := fun h => by (cases h), accepting := fun h => by (cases h),
      finished := fun h => by (cases h), heldWait := by decide }, rfl⟩

theorem witness_OpcodeRowSelectsItsCommands :
    (⟨"INIT.S.v", 0x00000410, 0xFFFFFCFF⟩ : OpcodeRow) ∈ opcodeRows ∧
    (⟨"INIT.S.v", 0x00000410, 0xFFFFFCFF⟩ : OpcodeRow).selects 0x710 = true ∧
    (⟨"INIT.S.v", 0x00000410, 0xFFFFFCFF⟩ : OpcodeRow).selects 0x100000710 = false := by decide

/-- Two different states that differ only in unwritten registers. -/
theorem witness_UnwrittenRegistersAreNeverRead :
    SameWritten State.reset
      (resetWith { State.reset.ctx with seed := 7 } { State.reset.stream with off := 63 } { State.reset.seq with gi := 7 }) ∧
    State.reset ≠
      resetWith { State.reset.ctx with seed := 7 } { State.reset.stream with off := 63 } { State.reset.seq with gi := 7 } :=
  ⟨{ flags := rfl, ops := rfl, res := rfl, msg := rfl, params := rfl, port := rfl, gph := rfl,
     ctx := by decide, stream := by decide, seq := by decide, gk := by decide }, by decide⟩

end Sys2Proof.Tests
end

/-! SUPPORT. The invariant in its parts, each over the registers it speaks of alone, so that an update of other registers
keeps it by definition. -/

namespace Sys2Proof.Machine

/-- What the invariant says of the stream context (R32, R181, R190). -/
structure StreamPart (initd svalid : Bool) (st : StreamCtx) : Prop where
  bound : st.off.toNat ≤ 48
  tail : svalid = true → st.off.toNat = tailLength st.tlen.toNat
  engine : svalid = true → initd = true

/-- What the invariant says of the fault flags and ERRINFO (R28, R29, R236). -/
structure FaultPart (busy fault : Bool) (err : ErrCode) (errInfo : Word) : Prop where
  idle : fault = true → busy = false
  code : fault = true ↔ err ≠ .noError
  info : fault = false → errInfo = 0

/-- What each phase of the secret generator may rely on (R216). -/
def PhaseFacts (gsec : Secret) (q : Sequencer) : Prop :=
  match q.gph with
  | .idle => True
  | .draw => q.gi.toNat < 4 ∧ q.gj.toNat < 8
  | .odd => q.gi.toNat < 4
  | .ham => q.gi.toNat < 4 ∧ q.gk.toNat ≤ q.gi.toNat ∧ acceptable q.cand (gsec.words.take q.gk.toNat) = true
  | .accept => q.gi.toNat < 4 ∧ acceptable q.cand (gsec.words.take q.gi.toNat) = true
  | .done => q.gi.toNat = 4

/-- What the invariant says of the secret generator (R25, R215, R216, R218). -/
structure GenPart (busy gvalid : Bool) (gsec : Secret) (q : Sequencer) : Prop where
  phase : busy = true ↔ q.gph ≠ .idle
  invalid : busy = true → gvalid = false
  valid : gvalid = true → ValidWords gsec.words
  accepted : busy = true → q.gi.toNat ≤ 4 ∧ ValidWords (gsec.words.take q.gi.toNat)
  facts : PhaseFacts gsec q

/-- What the invariant says of the port (R28, R75). -/
structure PortPart (busy : Bool) (p : Port) : Prop where
  view : busy = true → p.during.isSome = true
  held : ∀ a ∈ p.held, HostAccess.isStatusRead a = false

/-- The phase facts as the invariant lists them, one implication per phase. -/
theorem phaseFacts_iff (gsec : Secret) (q : Sequencer) : PhaseFacts gsec q ↔
    (q.gph = .draw → q.gi.toNat < 4 ∧ q.gj.toNat < 8) ∧ (q.gph = .odd → q.gi.toNat < 4) ∧
    (q.gph = .ham → q.gi.toNat < 4 ∧ q.gk.toNat ≤ q.gi.toNat ∧
      acceptable q.cand (gsec.words.take q.gk.toNat) = true) ∧
    (q.gph = .accept → q.gi.toNat < 4 ∧ acceptable q.cand (gsec.words.take q.gi.toNat) = true) ∧
    (q.gph = .done → q.gi.toNat = 4) := by
  unfold PhaseFacts
  cases q.gph <;> simp

/-- The invariant, part by part. -/
theorem invariant_iff (s : State) : Invariant s ↔
    (s.msg.wf ∧ s.msg.within s.params.msgBytes) ∧ StreamPart s.flags.initd s.flags.svalid s.stream ∧
    FaultPart s.flags.busy s.flags.fault s.flags.err s.res.errInfo ∧
    GenPart s.flags.busy s.flags.gvalid s.res.gsec s.seq ∧ PortPart s.flags.busy s.port := by
  constructor
  · intro h
    exact ⟨⟨h.msgWf, h.msgWithin⟩, ⟨h.offBound, h.offTail, h.streamEngine⟩, ⟨h.faultIdle, h.faultCode, h.faultInfo⟩,
      ⟨h.busyPhase, h.busyInvalid, h.gsecValid, h.accepted,
        (phaseFacts_iff _ _).2 ⟨h.drawing, h.testingOdd, h.testingHam, h.accepting, h.finished⟩⟩,
      ⟨h.busyView, h.heldWait⟩⟩
  · rintro ⟨⟨wf, within⟩, st, f, g, p⟩
    obtain ⟨draw, odd, ham, accept, done⟩ := (phaseFacts_iff _ _).1 g.facts
    exact ⟨wf, within, st.bound, st.tail, st.engine, g.phase, p.view, f.idle, f.code, f.info, g.invalid, g.valid,
      g.accepted, draw, odd, ham, accept, done, p.held⟩

/-! ### The stream part -/

/-- A tail counted on from a tail: whole blocks before it make no difference (R190). -/
theorem tailLength_tailLength_add (n m : Nat) : tailLength (tailLength n + m) = tailLength (n + m) := by
  unfold tailLength; omega

/-- TLEN grows by the length of the chunk, on both paths of a WRITE (R182). -/
theorem streamWrite_tlen (v : Variant) (k : Secret) (st : StreamCtx) (c : List Byte) :
    (streamWrite v k st c).tlen = st.tlen + BitVec.ofNat 64 c.length := by
  unfold streamWrite; split <;> rfl

/-- The same in the integers, where the total fits its counter (R235). -/
theorem streamWrite_tlen_toNat (v : Variant) (k : Secret) {st : StreamCtx} {c : List Byte}
    (h : st.tlen.toNat + c.length < 2 ^ 64) :
    (streamWrite v k st c).tlen.toNat = st.tlen.toNat + c.length := by
  rw [streamWrite_tlen, BitVec.toNat_add, BitVec.toNat_ofNat]
  omega

/-- OFF after a WRITE is the tail length of the bytes that waited and the chunk's, on both paths (R183, R184). -/
theorem streamWrite_off (v : Variant) (k : Secret) {st : StreamCtx} (c : List Byte) (h : st.off.toNat ≤ 48) :
    (streamWrite v k st c).off.toNat = tailLength (st.off.toNat + c.length) := by
  unfold streamWrite
  split
  · rename_i fits
    rw [tailLength_of_le fits, writeFits, BitVec.toNat_ofNat]
    omega
  · simp only [writeOverflow, BitVec.toNat_ofNat]
    rw [directLoop_eq _ _ _ _ _ _ (by simp)]
    simp only [List.length_drop, tailLength]
    omega

/-- A stream that is open keeps OFF at the tail length of TLEN under a WRITE that fits its counter (R190). -/
theorem streamWrite_tail (v : Variant) (k : Secret) {st : StreamCtx} {c : List Byte}
    (h : st.off.toNat = tailLength st.tlen.toNat) (fits : st.tlen.toNat + c.length < 2 ^ 64) :
    (streamWrite v k st c).off.toNat = tailLength (streamWrite v k st c).tlen.toNat := by
  rw [streamWrite_off v k c (h ▸ tailLength_le _), streamWrite_tlen_toNat v k fits, h, tailLength_tailLength_add]

theorem StreamPart.write {initd svalid : Bool} {st : StreamCtx} (h : StreamPart initd svalid st) (v : Variant)
    (k : Secret) {c : List Byte} (fits : st.tlen.toNat + c.length < 2 ^ 64) :
    StreamPart initd svalid (streamWrite v k st c) where
  bound := streamWrite_off v k c h.bound ▸ tailLength_le _
  tail := fun hv => streamWrite_tail v k (h.tail hv) fits
  engine := h.engine

/-! ### The generator part -/

theorem halfDistance_comm (a b : Word) : halfDistance a b = halfDistance b a := by
  unfold halfDistance; rw [BitVec.xor_comm]

/-- Accepting a word extends a valid secret (R215, R218). -/
theorem ValidWords.append {ws : List Word} (h : ValidWords ws) {c : Word} (ok : acceptable c ws = true) :
    ValidWords (ws ++ [c]) := by
  obtain ⟨odd, dist⟩ := h
  simp only [acceptable, Bool.and_eq_true, List.all_eq_true] at ok
  refine ⟨fun w hw => ?_, List.pairwise_append.2 ⟨dist, List.pairwise_singleton _ _, fun a ha b hb => ?_⟩⟩
  · rcases List.mem_append.1 hw with hw | hw
    · exact odd w hw
    · rw [List.mem_singleton.1 hw]; exact ok.1
  · rw [List.mem_singleton.1 hb, halfDistance_comm]; exact ok.2 a ha

/-- A candidate at half distance from the next word too is acceptable against one word more. -/
theorem acceptable_append {c w : Word} {ws : List Word} (h : acceptable c ws = true) (d : halfDistance c w = true) :
    acceptable c (ws ++ [w]) = true := by
  simp_all [acceptable]

/-- The first words of a bank and the next one. -/
theorem Secret.take_words_succ (k : Secret) {i : Nat} (h : i < 4) :
    k.words.take (i + 1) = k.words.take i ++ [k.get i] := by
  match i, h with
  | 0, _ | 1, _ | 2, _ | 3, _ => rfl

/-- Storing word `i` leaves the words before it and puts it behind them. -/
theorem Secret.take_words_set (k : Secret) {i : Nat} (h : i < 4) (c : Word) :
    (k.set i c).words.take (i + 1) = k.words.take i ++ [c] := by
  match i, h with
  | 0, _ | 1, _ | 2, _ | 3, _ => rfl

section
variable {gvalid : Bool} {gsec : Secret} {q : Sequencer}

/-- A running generator that goes on with the words it has: only the facts of its phase are new. -/
theorem GenPart.goOn (h : GenPart true gvalid gsec q) {q' : Sequencer} (gi : q'.gi = q.gi) (run : q'.gph ≠ .idle)
    (facts : PhaseFacts gsec q') : GenPart true gvalid gsec q' :=
  ⟨by simp [run], h.invalid, h.valid, gi ▸ h.accepted, facts⟩

/-- A rejected candidate: back to drawing (R216). -/
theorem GenPart.nextCandidate (h : GenPart true gvalid gsec q) (gi : q.gi.toNat < 4) :
    GenPart true gvalid gsec q.nextCandidate :=
  h.goOn rfl (by simp [Sequencer.nextCandidate]) ⟨gi, Nat.zero_lt_succ _⟩

theorem GenPart.draw (h : GenPart true gvalid gsec q) (p : Params) (facts : q.gi.toNat < 4 ∧ q.gj.toNat < 8) :
    GenPart true gvalid gsec (genDraw p q) := by
  obtain ⟨gi, gj⟩ := facts
  unfold genDraw
  split
  · exact h.goOn rfl (by simp) gi
  · rename_i more
    refine h.goOn rfl (by simp) ⟨gi, ?_⟩
    bv_omega

theorem GenPart.odd (h : GenPart true gvalid gsec q) (gi : q.gi.toNat < 4) : GenPart true gvalid gsec (genOdd q) := by
  cases pass : oddOk q.cand with
  | false => rw [genOdd_reject pass]; exact h.nextCandidate gi
  | true =>
    rw [genOdd_pass pass]
    exact h.goOn rfl (by simp) ⟨gi, Nat.zero_le _, by simp [acceptable, pass]⟩

theorem GenPart.ham (h : GenPart true gvalid gsec q) (facts : q.gi.toNat < 4 ∧ q.gk.toNat ≤ q.gi.toNat ∧
    acceptable q.cand (gsec.words.take q.gk.toNat) = true) (phase : q.gph = .ham) :
    GenPart true gvalid gsec (genHam gsec q) := by
  obtain ⟨gi, gk, acc⟩ := facts
  by_cases all : q.gk.toNat = q.gi.toNat
  · rw [genHam_end gsec all]
    exact h.goOn rfl (by simp) ⟨gi, all ▸ acc⟩
  · cases pass : halfDistance q.cand (gsec.get q.gk.toNat) with
    | false => rw [genHam_reject all pass]; exact h.nextCandidate gi
    | true =>
      rw [genHam_pass all pass]
      have succ : (q.gk + 1).toNat = q.gk.toNat + 1 := by bv_omega
      refine h.goOn rfl (by simp [phase]) ?_
      simp only [PhaseFacts, phase, succ]
      refine ⟨gi, by omega, ?_⟩
      rw [Secret.take_words_succ _ (by omega)]
      exact acceptable_append acc pass

theorem GenPart.accept (h : GenPart true gvalid gsec q)
    (facts : q.gi.toNat < 4 ∧ acceptable q.cand (gsec.words.take q.gi.toNat) = true) :
    GenPart true gvalid (gsec.set q.gi.toNat q.cand) (genAccept q) := by
  obtain ⟨gi, acc⟩ := facts
  have succ : (q.gi + 1).toNat = q.gi.toNat + 1 := by bv_omega
  refine ⟨?_, h.invalid, fun gv => absurd (h.invalid rfl) (by simp [gv]), fun _ => ?_, ?_⟩
  · unfold genAccept; split <;> simp
  · simp only [genAccept, succ]
    rw [Secret.take_words_set _ gi]
    exact ⟨gi, (h.accepted rfl).2.append acc⟩
  · unfold genAccept
    split
    · rename_i last
      simp only [PhaseFacts, last]
      rfl
    · rename_i more
      refine ⟨?_, Nat.zero_lt_succ _⟩
      bv_omega

/-- G_DONE: the four words accepted are the secret GVALID = 1 vouches for (R218). -/
theorem GenPart.done (h : GenPart true gvalid gsec q) (facts : q.gi.toNat = 4) :
    GenPart false true gsec { q with gph := .idle } where
  phase := by simp
  invalid := by simp
  valid := fun _ => by simpa [facts, Secret.words] using (h.accepted rfl).2
  accepted := by simp
  facts := trivial

/-- G_IDLE on an accepted GENSEC (R216). -/
theorem GenPart.start (gsec : Secret) (q : Sequencer) (seed : Word) (v : Variant) :
    GenPart true false gsec { q with g := seed, cand := 0, gi := 0, gj := 0, gph := .draw, gvar := v } where
  phase := by simp
  invalid := by simp
  valid := by simp
  accepted := fun _ => ⟨Nat.zero_le _, by simp [ValidWords]⟩
  facts := ⟨Nat.zero_lt_succ _, Nat.zero_lt_succ _⟩

end

/-- A step of the running generator keeps the invariant. -/
theorem Invariant.genStep {s : State} (h : Invariant s) (busy : s.flags.busy = true) : Invariant (genStep s) := by
  obtain ⟨mem, st, f, g, p⟩ := (invariant_iff s).1 h
  have g' : GenPart true s.flags.gvalid s.res.gsec s.seq := busy ▸ g
  have facts := g.facts
  cases phase : s.seq.gph with
  | idle => exact absurd phase (g.phase.1 busy)
  | draw =>
    simp only [PhaseFacts, phase] at facts
    rw [genStep_draw phase]
    exact (invariant_iff _).2 ⟨mem, st, f, busy.symm ▸ g'.draw s.params facts, p⟩
  | odd =>
    simp only [PhaseFacts, phase] at facts
    rw [genStep_odd phase]
    exact (invariant_iff _).2 ⟨mem, st, f, busy.symm ▸ g'.odd facts, p⟩
  | ham =>
    simp only [PhaseFacts, phase] at facts
    rw [genStep_ham phase]
    exact (invariant_iff _).2 ⟨mem, st, f, busy.symm ▸ g'.ham facts phase, p⟩
  | accept =>
    simp only [PhaseFacts, phase] at facts
    rw [genStep_accept phase]
    exact (invariant_iff _).2 ⟨mem, st, f, busy.symm ▸ g'.accept facts, p⟩
  | done =>
    simp only [PhaseFacts, phase] at facts
    rw [genStep_done phase]
    exact (invariant_iff _).2 ⟨mem, st, ⟨fun _ => rfl, f.code, f.info⟩, g'.done facts, ⟨nofun, p.held⟩⟩

/-! ### Reset, commands, accesses -/

/-- The reset values of the registers meet their parts, whatever the memory, the parameters and the port hold. -/
theorem Invariant.resetEngine {s : State} (mem : s.msg.wf ∧ s.msg.within s.params.msgBytes)
    (held : ∀ a ∈ s.port.held, HostAccess.isStatusRead a = false) : Invariant s.resetEngine :=
  (invariant_iff _).2 ⟨mem, ⟨Nat.zero_le _, nofun, nofun⟩, ⟨nofun, by simp [State.reset], fun _ => rfl⟩,
    ⟨by simp [State.reset], nofun, nofun, nofun, trivial⟩, ⟨nofun, held⟩⟩

/-- A command that runs on an idle, unfaulted engine keeps the invariant. -/
theorem Invariant.ran {s t : State} {i : Instr} (h : Invariant s) (ok : s.flags.fault = false) (r : Ran s i t) :
    Invariant t := by
  obtain ⟨mem, st, f, g, p⟩ := (invariant_iff s).1 h
  have port : PortPart s.flags.busy s.startCommand.port := ⟨fun _ => rfl, p.held⟩
  have init : StreamPart true false s.stream := ⟨st.bound, nofun, nofun⟩
  refine (invariant_iff t).2 ?_
  cases r with
  | mum | mix | hash | finish => exact ⟨mem, st, f, g, port⟩
  | initD | initS | initG => exact ⟨mem, init, f, g, port⟩
  | sopen engine =>
    have empty : StreamPart s.flags.initd true (emptyStream s.ctx.seed) :=
      ⟨Nat.zero_le _, fun _ => (tailLength_of_le (Nat.zero_le _)).symm, fun _ => engine⟩
    exact ⟨mem, empty, f, g, port⟩
  | write _ _ fits =>
    have fits := (lengthFits_iff s).1 fits
    exact ⟨mem, st.write _ _ (by rwa [length_chunk]), f, g, port⟩
  | gensec v =>
    exact ⟨mem, st, ⟨fun faulted => by simp [ok] at faulted, f.code, f.info⟩, .start .., ⟨fun _ => rfl, p.held⟩⟩

/-- Entering the fault state from an idle engine keeps the invariant (R236). -/
theorem Invariant.raiseFault {s : State} (h : Invariant s) (idle : s.flags.busy = false) {code : ErrCode}
    (isError : code ≠ .noError) (w : Word) : Invariant (s.raiseFault code w) := by
  obtain ⟨mem, st, -, g, p⟩ := (invariant_iff s).1 h
  have g' : GenPart false s.flags.gvalid s.res.gsec s.seq := idle ▸ g
  exact (invariant_iff _).2 ⟨mem, st, ⟨fun _ => rfl, by simp [isError], nofun⟩, g', ⟨nofun, p.held⟩⟩

/-- The port may change, as long as a running command's view stays latched and no STATUS read is held. -/
theorem Invariant.setPort {s : State} (h : Invariant s) {p : Port} (view : s.flags.busy = true → p.during.isSome = true)
    (held : ∀ a ∈ p.held, HostAccess.isStatusRead a = false) : Invariant { s with port := p } := by
  obtain ⟨mem, st, f, g, -⟩ := (invariant_iff s).1 h
  exact (invariant_iff _).2 ⟨mem, st, f, g, ⟨view, held⟩⟩

theorem Invariant.endWindow {s : State} (h : Invariant s) (idle : s.flags.busy = false) : Invariant s.endWindow :=
  h.setPort (by simp [idle]) h.heldWait

theorem Invariant.reply {s : State} (h : Invariant s) (x : Word) : Invariant (s.reply x) :=
  h.setPort h.busyView h.heldWait

theorem Invariant.setEvents {s : State} (h : Invariant s) (es : List HostEvent) : Invariant (s.setEvents es) :=
  h.setPort h.busyView h.heldWait

theorem Invariant.hold {s : State} (h : Invariant s) {a : HostAccess} (notStatus : HostAccess.isStatusRead a = false) :
    Invariant (s.hold a) :=
  h.setPort h.busyView fun b hb => by
    rcases List.mem_append.1 hb with hb | hb
    · exact h.heldWait b hb
    · rw [List.mem_singleton.1 hb, notStatus]

/-- Nothing in the invariant rests on an operand register. -/
theorem Invariant.setOps {s : State} (h : Invariant s) (o : Operands) : Invariant (s.setOps o) :=
  (invariant_iff _).2 ((invariant_iff s).1 h)

theorem Invariant.readStatus {s : State} (h : Invariant s) : Invariant (readStatus s) := by
  unfold Machine.readStatus
  split
  · exact h.reply _
  · rename_i idle
    exact (h.endWindow (by simpa using idle)).reply _

/-- Taking a held access off the port, or the next one off the events. -/
theorem Invariant.completes {s s' : State} {a : HostAccess} (h : Invariant s) (c : Completes s a s') : Invariant s' := by
  have tail : ∀ {later}, s.port.held = a :: later → ∀ b ∈ later, HostAccess.isStatusRead b = false :=
    fun held b hb => h.heldWait b (by simp [held, hb])
  cases c with
  | arriving rest => exact h.setEvents rest
  | heldEmpty later _ held => exact h.setPort h.busyView (tail held)
  | heldQuiet later rest _ held => exact h.setPort h.busyView (tail held)

/-- An access that completes in an idle engine keeps the invariant. -/
theorem Invariant.served {s t : State} {a : HostAccess} (h : Invariant s) (idle : s.flags.busy = false)
    (served : Served s a t) : Invariant t := by
  have h' : Invariant s.endWindow := h.endWindow idle
  cases served with
  | regRead => exact h'.reply _
  | memRead => exact h'.reply _
  | regWrite n x =>
    obtain ⟨o, ho⟩ := regWrite_eq_setOps n x s.endWindow
    exact ho ▸ h'.setOps o
  | refusedCommand => exact h'
  | illegal w => exact h'.raiseFault idle (by decide) w
  | command w i _ ok _ ran =>
    obtain r | ⟨code, isError, rfl⟩ := exec_cases ran
    · exact h'.ran ok r
    · exact h'.raiseFault idle isError _
  | memWrite a n v _ inside =>
    obtain ⟨⟨wf, within⟩, rest⟩ := (invariant_iff _).1 h'
    exact (invariant_iff _).2
      ⟨⟨Memory.wf_writeBytes wf _ _, Memory.within_writeBytes within _ _ (by simpa using inside)⟩, rest⟩

/-- Settles O58: every way a step answers a next state keeps the invariant. -/
theorem everyStepKeepsTheInvariant : Obligations.EveryStepKeepsTheInvariant := by
  intro s t h next
  cases step_cases next with
  | reset => exact .resetEngine ⟨h.msgWf, h.msgWithin⟩ h.heldWait
  | statusDuring rest => exact (h.setEvents rest).reply _
  | status rest => exact (h.setEvents rest).readStatus
  | hold a rest _ notStatus => exact (h.setEvents rest).hold notStatus
  | generator _ busy => exact h.genStep busy
  | generatorQuiet rest _ busy => exact (h.setEvents rest).genStep busy
  | idle => exact h
  | idleQuiet rest => exact h.setEvents rest
  | access a s' _ idle which served =>
    have busy : s'.flags.busy = false := by obtain ⟨-, -, flags, -⟩ := which.frame; rw [flags, idle]
    exact (h.completes which).served busy served

/-- Settles O57: the reset state is a reset engine, its memory empty and nothing held. -/
theorem resetMeetsTheInvariant : Obligations.ResetMeetsTheInvariant :=
  Invariant.resetEngine (s := State.reset) ⟨Memory.wf_nil, nofun⟩ nofun

end Sys2Proof.Machine

/-! SUPPORT. What the registers that nothing has written can reach (spec/10_state.md R41, R42, spec/70_reset_and_hazards.md
R262): what a register read depends on, and that every operation on two states that differ only in unwritten registers
leaves two such states. -/

namespace Sys2Proof.Machine

/-! ### What a register read depends on -/

/-- STATUS shows the variant only where INITD = 1 and of TLEN only whether it is zero, where SVALID = 1 (R28). -/
theorem statusWord_congr {s t : State} (flags : s.flags = t.flags) (var : s.flags.initd = true → s.ctx.var = t.ctx.var)
    (tlen : s.flags.svalid = true → (s.stream.tlen = 0 ↔ t.stream.tlen = 0)) : statusWord s = statusWord t := by
  have field : variantField s = variantField t := by
    unfold variantField
    rw [← flags]
    split
    · rw [var ‹_›]
    · rfl
  have phase : streamPhase s = streamPhase t := by
    unfold streamPhase
    rw [← flags]
    split
    · simp only [tlen ‹_›]
    · rfl
  simp only [statusWord, field, phase, flags]

theorem statusRead_congr {s t : State} (flags : s.flags = t.flags) (during : s.port.during = t.port.during)
    (status : statusWord s = statusWord t) : statusRead s = statusRead t := by
  simp only [statusRead, flags, during, status]

/-- A register read answers from STATUS, the operand registers and the result registers. -/
theorem regRead_congr {s t : State} (num : Nat) (ops : s.ops = t.ops) (res : s.res = t.res)
    (status : statusRead s = statusRead t) : regRead num s = regRead num t := by
  unfold regRead
  split
  · simp only [readReg, ops, res, status]
  · rfl

/-- Settles O54: the internal registers reach no register read, not even through STATUS. -/
theorem internalRegistersAreUnreadable : Obligations.InternalRegistersAreUnreadable := by
  intro s t num flags ops res var during tlen
  exact regRead_congr num ops res
    (statusRead_congr flags during (statusWord_congr flags (fun _ => var) (fun _ => tlen)))

/-! ### Operations on states that differ only in unwritten registers -/

section
variable {s t : State}

theorem SameWritten.statusWord (h : SameWritten s t) : statusWord s = statusWord t :=
  statusWord_congr h.flags (fun initd => by rw [h.ctx (.inl initd)]) (fun svalid => by rw [h.stream svalid])

theorem SameWritten.statusRead (h : SameWritten s t) : statusRead s = statusRead t :=
  statusRead_congr h.flags (by rw [h.port]) h.statusWord

theorem SameWritten.regRead (h : SameWritten s t) (num : Nat) : regRead num s = regRead num t :=
  regRead_congr num h.ops h.res h.statusRead

theorem SameWritten.setEvents (h : SameWritten s t) (es : List HostEvent) :
    SameWritten (s.setEvents es) (t.setEvents es) := { h with port := by simp [h.port] }

theorem SameWritten.setHeld (h : SameWritten s t) (as : List HostAccess) : SameWritten (s.setHeld as) (t.setHeld as) :=
  { h with port := by simp [h.port] }

theorem SameWritten.hold (h : SameWritten s t) (a : HostAccess) : SameWritten (s.hold a) (t.hold a) :=
  { h with port := by simp [h.port] }

theorem SameWritten.reply (h : SameWritten s t) (x : Word) : SameWritten (s.reply x) (t.reply x) :=
  { h with port := by simp [h.port] }

theorem SameWritten.endWindow (h : SameWritten s t) : SameWritten s.endWindow t.endWindow :=
  { h with port := by simp [h.port] }

theorem SameWritten.startCommand (h : SameWritten s t) : SameWritten s.startCommand t.startCommand :=
  { h with port := by simp [h.port, statusBusy, h.statusWord] }

theorem SameWritten.raiseFault (h : SameWritten s t) (code : ErrCode) (w : Word) :
    SameWritten (s.raiseFault code w) (t.raiseFault code w) :=
  { h with flags := by simp [h.flags], res := by simp [h.res], port := by simp [h.port] }

theorem SameWritten.setOps (h : SameWritten s t) (o : Operands) : SameWritten (s.setOps o) (t.setOps o) :=
  { h with ops := rfl }

theorem SameWritten.setMsg (h : SameWritten s t) (m : Memory) : SameWritten (s.setMsg m) (t.setMsg m) :=
  { h with msg := rfl }

theorem SameWritten.setRes0 (h : SameWritten s t) (x : Word) : SameWritten (s.setRes0 x) (t.setRes0 x) :=
  { h with res := by simp [h.res] }

theorem SameWritten.setResPair (h : SameWritten s t) (p : Word × Word) : SameWritten (s.setResPair p) (t.setResPair p) :=
  { h with res := by simp [h.res] }

theorem SameWritten.setDigest (h : SameWritten s t) (d : Word) : SameWritten (s.setDigest d) (t.setDigest d) :=
  { h with res := by simp [h.res] }

/-- An INIT writes the whole engine context and closes the stream. -/
theorem SameWritten.loadContext (h : SameWritten s t) (c : EngineCtx) : SameWritten (s.loadContext c) (t.loadContext c) :=
  { h with flags := by simp [h.flags], ctx := fun _ => rfl, stream := nofun }

/-- A SOPEN writes the whole stream context, over an engine context that has been written. -/
theorem SameWritten.openStream (h : SameWritten s t) (engine : s.flags.initd = true) (st : StreamCtx) :
    SameWritten (s.openStream st) (t.openStream st) :=
  { h with flags := by simp [h.flags], ctx := fun _ => h.ctx (.inl engine), stream := fun _ => rfl }

theorem SameWritten.setStream (h : SameWritten s t) (st : StreamCtx) : SameWritten (s.setStream st) (t.setStream st) :=
  { h with stream := fun _ => rfl }

/-- A GENSEC writes every sequencer register but GK, and starts outside the phase that compares. -/
theorem SameWritten.startGensec (h : SameWritten s t) (v : Variant) :
    SameWritten (s.startGensec v) (t.startGensec v) :=
  { h with flags := by simp [h.flags], gph := rfl, seq := fun _ => by simp [h.ops], gk := nofun }

theorem SameWritten.resetEngine (h : SameWritten s t) : SameWritten s.resetEngine t.resetEngine :=
  { flags := rfl, ops := rfl, res := rfl, msg := h.msg, params := h.params, port := by simp [h.port],
    ctx := fun _ => rfl, stream := fun _ => rfl, gph := rfl, seq := nofun, gk := nofun }

theorem SameWritten.readStatus (h : SameWritten s t) : SameWritten (readStatus s) (readStatus t) := by
  unfold Machine.readStatus
  rw [← h.flags, ← h.statusRead]
  split
  · exact h.reply _
  · exact h.endWindow.reply _

theorem SameWritten.readStatusDuring (h : SameWritten s t) :
    SameWritten (readStatusDuring s) (readStatusDuring t) := by
  unfold Machine.readStatusDuring
  rw [← h.port, ← h.statusRead]
  exact h.reply _

theorem SameWritten.regWrite (h : SameWritten s t) (n : Nat) (x : Word) :
    SameWritten (regWrite n x s) (regWrite n x t) := by
  unfold Machine.regWrite
  split
  · rw [← h.ops]; exact h.setOps _
  · exact h

/-! ### The generator -/

/-- The sequencers of a running GENSEC differ at most in GK. -/
theorem SameWritten.seq_eq (h : SameWritten s t) (run : s.seq.gph ≠ .idle) :
    ∃ k, t.seq = { s.seq with gk := k } := by
  obtain ⟨g, cand, gi, gj, gvar⟩ := h.seq run
  refine ⟨t.seq.gk, ?_⟩
  simp only [g, cand, gi, gj, gvar, h.gph]

theorem SameWritten.setSeq (h : SameWritten s t) (q : Sequencer) (k : BitVec 2) (ham : q.gph = .ham → q.gk = k) :
    SameWritten (s.setSeq q) (t.setSeq { q with gk := k }) :=
  { h with gph := rfl, seq := fun _ => ⟨rfl, rfl, rfl, rfl, rfl⟩, gk := ham }

theorem SameWritten.storeWord (h : SameWritten s t) (run : s.seq.gph ≠ .idle) :
    SameWritten s.storeWord t.storeWord := by
  obtain ⟨-, cand, gi, -⟩ := h.seq run
  exact { h with res := by simp [h.res, cand, gi] }

theorem SameWritten.endGensec (h : SameWritten s t) : SameWritten s.endGensec t.endGensec :=
  { h with flags := by simp [h.flags], port := by simp [h.port], gph := rfl, seq := nofun, gk := nofun }

/-- A step of the generator reads GK only in the phase that compares, which writes it first. -/
theorem SameWritten.genStep (h : SameWritten s t) : SameWritten (genStep s) (genStep t) := by
  have phase : t.seq.gph = s.seq.gph := h.gph.symm
  cases gph : s.seq.gph with
  | idle => simpa only [Machine.genStep, phase, gph] using h
  | draw =>
    obtain ⟨k, hk⟩ := h.seq_eq (by simp [gph])
    rw [genStep_draw gph, genStep_draw (phase.trans gph), hk, ← h.params]
    refine h.setSeq (genDraw s.params s.seq) k fun ham => ?_
    unfold genDraw at ham
    split at ham <;> cases ham
  | odd =>
    obtain ⟨k, hk⟩ := h.seq_eq (by simp [gph])
    have cand : t.seq.cand = s.seq.cand := by rw [hk]
    rw [genStep_odd gph, genStep_odd (phase.trans gph)]
    cases pass : oddOk s.seq.cand with
    | false =>
      rw [genOdd_reject pass, genOdd_reject (cand ▸ pass), hk]
      exact h.setSeq s.seq.nextCandidate k nofun
    | true =>
      rw [genOdd_pass pass, genOdd_pass (cand ▸ pass), hk]
      exact h.setSeq { s.seq with gk := 0, gph := .ham } 0 fun _ => rfl
  | ham =>
    obtain ⟨k, hk⟩ := h.seq_eq (by simp [gph])
    have same : t.seq = s.seq := by
      have gk : s.seq.gk = k := (h.gk gph).trans (by rw [hk])
      rw [hk, ← gk]
    rw [genStep_ham gph, genStep_ham (phase.trans gph), same, ← h.res]
    exact h.setSeq (genHam s.res.gsec s.seq) _ fun _ => rfl
  | accept =>
    obtain ⟨k, hk⟩ := h.seq_eq (by simp [gph])
    rw [genStep_accept gph, genStep_accept (phase.trans gph), hk]
    refine (h.storeWord (by simp [gph])).setSeq (genAccept s.seq) k fun ham => ?_
    unfold genAccept at ham
    split at ham <;> cases ham
  | done => rw [genStep_done gph, genStep_done (phase.trans gph)]; exact h.endGensec

/-! ### Commands -/

theorem SameWritten.chunk (h : SameWritten s t) : chunk s = chunk t := by simp only [Machine.chunk, h.msg, h.ops]

theorem SameWritten.chunkInRange (h : SameWritten s t) : chunkInRange s = chunkInRange t := by
  simp only [Machine.chunkInRange, h.ops, h.params]

theorem SameWritten.lengthFits (h : SameWritten s t) (opened : s.flags.svalid = true) : lengthFits s = lengthFits t := by
  simp only [Machine.lengthFits, h.ops, h.stream opened]

/-- A command reads the engine context only where INITD or SVALID says it was written, and the stream context only where
SVALID does. -/
theorem SameWritten.exec (h : SameWritten s t) (i : Instr) : OutcomeRel SameWritten (exec i s) (exec i t) := by
  have fault : ∀ code, OutcomeRel SameWritten (faultWith code i s) (faultWith code i t) := fun code => h.raiseFault code _
  have start := h.startCommand
  cases i with
  | mum v => simp only [Machine.exec, execMum, ← h.ops]; exact start.setResPair _
  | mix v => simp only [Machine.exec, execMix, ← h.ops]; exact start.setRes0 _
  | initD v => simp only [Machine.exec, execInitD, ← h.ops]; exact start.loadContext _
  | initS v => simp only [Machine.exec, execInitS, ← h.ops]; exact start.loadContext _
  | initG v =>
    simp only [Machine.exec, execInitG, ← h.ops, ← h.flags, ← h.res]
    split
    · exact fault _
    · exact start.loadContext _
  | hash =>
    simp only [Machine.exec, execHash, ← h.flags, ← h.chunkInRange, ← h.chunk]
    split
    · exact fault _
    · rename_i engine
      split
      · exact fault _
      · rw [← h.ctx (.inl (by simpa using engine))]; exact start.setDigest _
  | sopen =>
    simp only [Machine.exec, execSopen, ← h.flags]
    split
    · exact fault _
    · rename_i engine
      have engine : s.flags.initd = true := by simpa using engine
      rw [← h.ctx (.inl engine)]
      exact start.openStream engine _
  | write =>
    simp only [Machine.exec, execWrite, ← h.flags, ← h.chunkInRange, ← h.chunk]
    split
    · exact fault _
    · rename_i opened
      have opened : s.flags.svalid = true := by simpa using opened
      rw [← h.ctx (.inr opened), ← h.stream opened, ← h.lengthFits opened]
      split
      · exact fault _
      · split
        · exact fault _
        · exact start.setStream _
  | finish =>
    simp only [Machine.exec, execFinish, ← h.flags]
    split
    · exact fault _
    · rename_i opened
      have opened : s.flags.svalid = true := by simpa using opened
      rw [← h.ctx (.inr opened), ← h.stream opened]
      exact start.setDigest _
  | gensec v => exact start.startGensec v

/-! ### Accesses, events, steps -/

theorem SameWritten.offerCommand (h : SameWritten s t) (w : Word) :
    OutcomeRel SameWritten (offerCommand w s) (offerCommand w t) := by
  unfold Machine.offerCommand
  rw [← h.flags]
  split
  · exact h
  · split
    · exact h.raiseFault _ w
    · exact h.exec _

theorem SameWritten.serve (h : SameWritten s t) (a : HostAccess) : OutcomeRel SameWritten (serve a s) (serve a t) := by
  have closed := h.endWindow
  cases a with
  | regRead n => simp only [Machine.serve, ← h.regRead n]; exact closed.reply _
  | regWrite n x =>
    simp only [Machine.serve]
    split
    · exact closed.offerCommand x
    · exact closed.regWrite n x
  | memRead a n =>
    simp only [Machine.serve, memRead, ← closed.params, ← closed.msg]
    split
    · rfl
    · split
      · rfl
      · exact closed.reply _
  | memWrite a n v =>
    simp only [Machine.serve, memWrite, ← closed.params, ← closed.msg]
    split
    · rfl
    · split
      · rfl
      · exact closed.setMsg _

theorem SameWritten.engineMove (h : SameWritten s t) : OutcomeRel SameWritten (engineMove s) (engineMove t) := by
  unfold Machine.engineMove
  rw [← h.flags, ← h.port]
  split
  · exact h.genStep
  · split
    · exact h
    · exact (h.setHeld _).serve _

theorem SameWritten.arrive (h : SameWritten s t) (a : HostAccess) :
    OutcomeRel SameWritten (arrive a s) (arrive a t) := by
  unfold Machine.arrive
  rw [← h.flags, ← h.port]
  split
  · exact h.readStatus
  · split
    · exact h.hold a
    · exact h.serve a

theorem SameWritten.takeEvent (h : SameWritten s t) (e : HostEvent) :
    OutcomeRel SameWritten (takeEvent e s) (takeEvent e t) := by
  cases e with
  | access a => exact h.arrive a
  | statusDuring => exact h.readStatusDuring
  | quiet => exact h.engineMove
  | reset => exact h.resetEngine

theorem SameWritten.step (h : SameWritten s t) : OutcomeRel SameWritten (step s) (step t) := by
  unfold Machine.step
  rw [← h.port]
  split
  · exact h.engineMove
  · exact (h.setEvents _).takeEvent _

/-- Any number of steps treats two such states alike. -/
theorem SameWritten.run (h : SameWritten s t) (n : Nat) : OutcomeRel SameWritten (core.run n s) (core.run n t) := by
  induction n generalizing s t with
  | zero => exact h
  | succ n ih =>
    have one : OutcomeRel SameWritten (core.step s) (core.step t) := h.step
    simp only [Host.Core.run]
    generalize core.step s = a, core.step t = b at one ⊢
    cases a <;> cases b
    case next.next => exact ih one
    case fault.fault | refused.refused => exact one
    all_goals exact one.elim

end

/-- Settles O59: every case of a step treats two such states alike. -/
theorem unwrittenRegistersAreNeverRead : Obligations.UnwrittenRegistersAreNeverRead := fun _ _ h => h.step

/-- Related outcomes have taught the host the same. -/
theorem OutcomeRel.learnt {a b : Result} (h : OutcomeRel SameWritten a b) : learnt a = learnt b := by
  cases a <;> cases b
  case next.next s t => exact congrArg (fun p => some p.replies) (SameWritten.port h)
  case fault.fault => rfl
  case refused.refused => rfl
  all_goals exact h.elim

/-- After reset nothing has been written: any two choices of the unspecified registers differ only there. -/
theorem sameWritten_resetWith (c : EngineCtx) (st : StreamCtx) (q : Sequencer) (msg : Memory) (p : Params) (port : Port) :
    SameWritten { resetWith c st q with msg := msg, params := p, port := port }
      { State.reset with msg := msg, params := p, port := port } where
  flags := rfl
  ops := rfl
  res := rfl
  msg := rfl
  params := rfl
  port := rfl
  ctx := by simp [resetWith, State.reset]
  stream := nofun
  gph := rfl
  seq := fun run => absurd rfl run
  gk := nofun

/-- Settles O60: from reset the two runs stay related, so the answers are the same. -/
theorem resetValuesNobodyCanLearn : Obligations.ResetValuesNobodyCanLearn := by
  intro c st q msg p events n
  exact ((sameWritten_resetWith c st q msg p _).run n).learnt

end Sys2Proof.Machine

/-! SUPPORT. Commands that complete: what they leave beside what they write, and for the stream the bytes of BUF that are
alive (spec/10_state.md R39, R44, spec/43_streaming.md R181 to R188). -/

namespace Sys2Proof.Machine

/-- The converse of `exec_cases`: a command whose checks pass runs. -/
theorem Ran.exec {s t : State} {i : Instr} (h : Ran s i t) : exec i s = .next t := by
  cases h with
  | mum | mix | initD | initS | gensec => rfl
  | initG v valid => simp [Machine.exec, execInitG, valid]
  | hash engine bounds => simp [Machine.exec, execHash, engine, bounds]
  | sopen engine => simp [Machine.exec, execSopen, engine]
  | write opened bounds fits => simp [Machine.exec, execWrite, opened, bounds, fits]
  | finish opened => simp [Machine.exec, execFinish, opened]

/-- A command that runs leaves the host's side alone and latches what STATUS shows meanwhile (R28). -/
theorem Ran.ranFrom {s t : State} {i : Instr} (h : Ran s i t) : RanFrom s t := by
  obtain ⟨-, -, -, port⟩ := h.frame
  simp [RanFrom, PortUnchanged, port, statusBusy]

theorem Ran.memoryUnchanged {s t : State} {i : Instr} (h : Ran s i t) : MemoryUnchanged s t := by
  obtain ⟨-, msg, -⟩ := h.frame
  exact fun a => by rw [msg]

/-- Settles O20: MUM has no check, and its state is `setResPair`'s. -/
theorem mumWritesThePair : Obligations.MumWritesThePair := by
  intro v s
  have ran := Ran.mum (s := s) v
  exact ⟨_, ran.exec, rfl, rfl, rfl, rfl, rfl, rfl, rfl, rfl, rfl, rfl, ran.memoryUnchanged, ran.ranFrom⟩

/-- Settles O21: MIX has no check, and its state is `setRes0`'s. -/
theorem mixWritesRes0Only : Obligations.MixWritesRes0Only := by
  intro v s
  have ran := Ran.mix (s := s) v
  exact ⟨_, ran.exec, rfl, rfl, rfl, rfl, rfl, rfl, rfl, rfl, rfl, rfl, rfl, ran.memoryUnchanged, ran.ranFrom⟩

/-- Settles O29: with INITD = 1 the only check of SOPEN passes. -/
theorem sopenStartsAnEmptyStream : Obligations.SopenStartsAnEmptyStream := by
  intro s engine
  have ran := Ran.sopen (s := s) engine
  exact ⟨_, ran.exec, rfl, fun i hi => Vector.getElem_replicate hi, rfl, rfl, rfl, rfl, rfl, rfl, rfl, rfl, rfl,
    ran.memoryUnchanged, ran.ranFrom⟩

/-- Settles O30: the three premises are WRITE's three checks, and the last keeps TLEN's sum exact. -/
theorem writeChangesOnlyTheStream : Obligations.WriteChangesOnlyTheStream := by
  intro s opened bounds fits
  have fits : s.stream.tlen.toNat + s.ops.len.toNat < 2 ^ 64 := by omega
  have ran := Ran.write opened ((chunkInRange_iff s).2 bounds) ((lengthFits_iff s).2 fits)
  have tlen := streamWrite_tlen_toNat s.ctx.var s.ctx.k (c := chunk s) (by rwa [length_chunk])
  rw [length_chunk] at tlen
  exact ⟨_, ran.exec, rfl, tlen, rfl, rfl, rfl, rfl, rfl, rfl, ran.memoryUnchanged, ran.ranFrom⟩

/-! ### The live bytes of BUF -/

section
variable {a b : StreamCtx} (h : SameLive a b) (v : Variant) (k : Secret) (c : List Byte)
include h

/-- Topping off the buffer overwrites the dead bytes behind OFF: the full buffers are the same (R184). -/
theorem SameLive.topOff (bound : a.off.toNat ≤ 48) (past : 48 < a.off.toNat + c.length) :
    bufCopy a.buf a.off.toNat (c.take (48 - a.off.toNat)) = bufCopy b.buf a.off.toNat (c.take (48 - a.off.toNat)) := by
  have full : a.off.toNat + (c.take (48 - a.off.toNat)).length = 48 := by simp; omega
  apply Vector.toList_inj.1
  rw [bufCopy_full _ _ full, bufCopy_full _ _ full, h.tail, h.off]

/-- So a chunk that overflows leaves the same stream context. -/
theorem SameLive.writeOverflow (bound : a.off.toNat ≤ 48) (past : 48 < a.off.toNat + c.length) :
    writeOverflow v k a c = writeOverflow v k b c := by
  simp only [Machine.writeOverflow, h.topOff c bound past, h.lanes, h.tlen, ← h.off]

/-- A chunk that fits goes behind the live bytes and leaves those in front of it alone (R183). -/
theorem SameLive.writeFits (tail : a.off.toNat = tailLength a.tlen.toNat) (fits : a.off.toNat + c.length ≤ 48)
    (total : a.tlen.toNat + c.length < 2 ^ 64) : SameLive (writeFits a c) (writeFits b c) where
  lanes := h.lanes
  off := by simp only [Machine.writeFits, h.off]
  tlen := by simp only [Machine.writeFits, h.tlen]
  tail := by
    have off : (BitVec.ofNat 6 (a.off.toNat + c.length)).toNat = a.off.toNat + c.length := by
      rw [BitVec.toNat_ofNat]; omega
    simp only [Machine.writeFits, ← h.off, off]
    rw [bufCopy_take_end _ _ fits, bufCopy_take_end _ _ fits, h.tail, h.off]
  reach := by
    have off : (BitVec.ofNat 6 (a.off.toNat + c.length)).toNat = a.off.toNat + c.length := by
      rw [BitVec.toNat_ofNat]; omega
    have tlen : (a.tlen + BitVec.ofNat 64 c.length).toNat = a.tlen.toNat + c.length := by
      rw [BitVec.toNat_add, BitVec.toNat_ofNat]; omega
    simp only [Machine.writeFits, ← h.off, off, tlen]
    intro long short
    have before : 48 < a.tlen.toNat := by
      by_contra hn
      rw [tailLength_of_le (by omega)] at tail
      omega
    have reach := h.reach before (by omega)
    rw [bufCopy_drop _ _ (by omega) fits, bufCopy_drop _ _ (by omega) fits, ← Nat.add_assoc, ← List.drop_drop, reach,
      List.drop_drop, h.off]

/-- A WRITE keeps two stream contexts the same but for dead bytes. -/
theorem SameLive.write (tail : a.off.toNat = tailLength a.tlen.toNat) (total : a.tlen.toNat + c.length < 2 ^ 64) :
    SameLive (streamWrite v k a c) (streamWrite v k b c) := by
  unfold streamWrite
  rw [← h.off]
  split
  · exact h.writeFits c tail ‹_› total
  · rw [h.writeOverflow v k c (tail ▸ tailLength_le _) (by omega)]
    exact ⟨rfl, rfl, rfl, rfl, fun _ _ => rfl⟩

/-- A read inside the live front of the buffer. -/
theorem SameLive.le64 {o : Nat} (inside : o + 8 ≤ a.off.toNat) : le64 a.buf.toList o = le64 b.buf.toList o := by
  rw [← le64_take inside, h.tail, le64_take (h.off ▸ inside)]

theorem SameLive.finishRounds : finishRounds v k a = finishRounds v k b := by
  have seed : finishSeed a = finishSeed b := by simp only [finishSeed, h.tlen, h.lanes]
  simp only [Machine.finishRounds, ← seed, ← h.off]
  by_cases one : 16 < a.off.toNat
  · rw [h.le64 (o := 0) (by omega), h.le64 (o := 8) (by omega)]
    by_cases two : 32 < a.off.toNat
    · rw [h.le64 (o := 16) (by omega), h.le64 (o := 24) (by omega)]
    · rw [if_neg two, if_neg two]
  · rw [if_neg one, if_neg one, if_neg (by omega), if_neg (by omega)]

/-- The final window is the last 16 live bytes, the reach-back bytes among them (R186, R188). -/
theorem SameLive.finishWindow (tail : a.off.toNat = tailLength a.tlen.toNat) (long : 16 < a.tlen.toNat) :
    finishWindow a = finishWindow b := by
  simp only [Machine.finishWindow, ← h.off]
  split
  · have front : ∀ l : List Byte, (l.drop (a.off.toNat - 16)).take 16 = (l.take a.off.toNat).drop (a.off.toNat - 16) := by
      intro l; rw [List.drop_take]; congr 1; omega
    rw [front, front, h.tail, h.off]
  · have folded : 48 < a.tlen.toNat := by
      by_contra hn
      rw [tailLength_of_le (by omega)] at tail
      omega
    rw [h.reach folded (by omega), h.tail, h.off]

theorem SameLive.streamFinish (tail : a.off.toNat = tailLength a.tlen.toNat) :
    streamFinish v k a = streamFinish v k b := by
  have seed : finishSeed a = finishSeed b := by simp only [finishSeed, h.tlen, h.lanes]
  unfold Machine.streamFinish
  rw [← h.tlen, ← seed]
  split
  · have all : a.tlen.toNat = a.off.toNat := by rw [tail, tailLength_of_le (by omega)]
    rw [all, h.tail, h.off]
  · rw [h.finishRounds, h.finishWindow tail (by omega)]

end

/-- Settles O40, by induction on the chunks: each WRITE keeps the contexts the same but for dead bytes, and FINISH reads
none of those. -/
theorem deadBufferBytesDoNotMatter : Obligations.DeadBufferBytesDoNotMatter := by
  intro v k a b chunks
  induction chunks generalizing a b with
  | nil => exact fun h tail _ => h.streamFinish v k tail
  | cons c cs ih =>
    intro h tail total
    simp only [List.flatten_cons, List.length_append] at total
    have fits : a.tlen.toNat + c.length < 2 ^ 64 := by omega
    exact ih _ _ (h.write v k c tail fits) (streamWrite_tail v k tail fits)
      (by rw [streamWrite_tlen_toNat v k fits]; omega)

end Sys2Proof.Machine

/-! SUPPORT. The STATUS word and the reset values, and the equations of a step: what it is for each event that can come
next, with the cases of the events themselves (spec/10_state.md R28, R42, spec/20_memory.md R75). -/

namespace Sys2Proof.Machine

/-! ### STATUS -/

/-- STATUS bit by bit, its fields from bit 0 up (R28). -/
theorem getLsbD_statusWord (s : State) (i : Nat) : (statusWord s).getLsbD i =
    if i < 1 then (BitVec.ofBool s.flags.busy).getLsbD i
    else if i - 1 < 1 then (BitVec.ofBool s.flags.initd).getLsbD (i - 1)
    else if i - 2 < 1 then (BitVec.ofBool s.flags.svalid).getLsbD (i - 2)
    else if i - 3 < 1 then (BitVec.ofBool s.flags.gvalid).getLsbD (i - 3)
    else if i - 4 < 1 then (BitVec.ofBool s.flags.fault).getLsbD (i - 4)
    else if i - 5 < 2 then (streamPhase s).getLsbD (i - 5)
    else if i - 7 < 1 then false
    else if i - 8 < 4 then s.flags.err.bits.getLsbD (i - 8)
    else if i - 12 < 2 then (variantField s).getLsbD (i - 12) else false := by
  unfold statusWord
  change BitVec.getLsbD (w := 50 + 2 + 4 + 1 + 2 + 1 + 1 + 1 + 1 + 1) _ i = _
  simp only [BitVec.getLsbD_append]
  simp only [Nat.sub_sub, Nat.reduceAdd, BitVec.ofNat_eq_ofNat, BitVec.getLsbD_zero]

theorem extractLsb'_statusWord_phase (s : State) : (statusWord s).extractLsb' 5 2 = streamPhase s := by
  apply BitVec.eq_of_getLsbD_eq
  intro i hi
  simp (disch := omega) only [BitVec.getLsbD_extractLsb', getLsbD_statusWord, if_neg, Nat.add_sub_cancel_left, hi,
    if_true, decide_true, Bool.true_and]

theorem extractLsb'_statusWord_err (s : State) : (statusWord s).extractLsb' 8 4 = s.flags.err.bits := by
  apply BitVec.eq_of_getLsbD_eq
  intro i hi
  simp (disch := omega) only [BitVec.getLsbD_extractLsb', getLsbD_statusWord, if_neg, Nat.add_sub_cancel_left, hi,
    if_true, decide_true, Bool.true_and]

theorem extractLsb'_statusWord_variant (s : State) : (statusWord s).extractLsb' 12 2 = variantField s := by
  apply BitVec.eq_of_getLsbD_eq
  intro i hi
  simp (disch := omega) only [BitVec.getLsbD_extractLsb', getLsbD_statusWord, if_neg, Nat.add_sub_cancel_left, hi,
    if_true, decide_true, Bool.true_and]

theorem extractLsb'_statusWord_top (s : State) : (statusWord s).extractLsb' 14 50 = 0 := by
  apply BitVec.eq_of_getLsbD_eq
  intro i hi
  simp (disch := omega) only [BitVec.getLsbD_extractLsb', getLsbD_statusWord, if_neg, Bool.and_false]
  simp
/-- Settles O49: each field read off the word bit by bit. -/
theorem statusLayout : Obligations.StatusLayout := by
  intro s
  have bit : ∀ b : Bool, (BitVec.ofBool b).getLsbD 0 = b := by decide
  refine ⟨?_, ?_, ?_, ?_, ?_, ?_, ?_, ?_, ?_, extractLsb'_statusWord_top s⟩
  · exact (getLsbD_statusWord s 0).trans (bit _)
  · exact (getLsbD_statusWord s 1).trans (bit _)
  · exact (getLsbD_statusWord s 2).trans (bit _)
  · exact (getLsbD_statusWord s 3).trans (bit _)
  · exact (getLsbD_statusWord s 4).trans (bit _)
  · rw [extractLsb'_statusWord_phase, streamPhase]
    cases s.flags.svalid <;> simp
  · exact getLsbD_statusWord s 7
  · rw [extractLsb'_statusWord_err]
    cases s.flags.err <;> rfl
  · rw [extractLsb'_statusWord_variant, variantField]
    cases s.flags.initd
    · rfl
    · cases s.ctx.var <;> rfl

/-- Settles O13: the reset state, field by field. -/
theorem resetLeavesTheStatedValues : Obligations.ResetLeavesTheStatedValues := ⟨rfl, by decide, rfl, rfl, rfl⟩

/-! ### The equations of a step -/

section
variable {s : State}

theorem step_of_noEvent (next : s.port.events = []) : step s = engineMove s := by simp only [step, next]

theorem step_of_event {e : HostEvent} {rest : List HostEvent} (next : s.port.events = e :: rest) :
    step s = takeEvent e (s.setEvents rest) := by simp only [step, next]

theorem engineMove_busy (busy : s.flags.busy = true) : engineMove s = .next (genStep s) := by
  simp only [engineMove, busy, if_true]

theorem engineMove_nothingHeld (idle : s.flags.busy = false) (held : s.port.held = []) : engineMove s = .next s := by
  simp [engineMove, idle, held]

theorem engineMove_held {a : HostAccess} {later : List HostAccess} (idle : s.flags.busy = false)
    (held : s.port.held = a :: later) : engineMove s = serve a (s.setHeld later) := by
  simp [engineMove, idle, held]

theorem isStatusRead_eq_false {a : HostAccess} (h : a ≠ .regRead 1) : HostAccess.isStatusRead a = false := by
  simp [HostAccess.isStatusRead, h]

/-- An access that finds the engine idle and nothing held completes at once. -/
theorem arrive_idle {a : HostAccess} (notStatus : a ≠ .regRead 1) (idle : s.flags.busy = false)
    (held : s.port.held = []) : arrive a s = serve a s := by
  simp [arrive, isStatusRead_eq_false notStatus, idle, held]

/-- Behind accesses that are held it waits. -/
theorem arrive_waits {a : HostAccess} (notStatus : a ≠ .regRead 1) (held : s.port.held ≠ []) :
    arrive a s = .next (s.hold a) := by
  simp [arrive, isStatusRead_eq_false notStatus, held]

/-- A CMD write that decodes to a command executes it in an unfaulted engine (R27, R238). -/
theorem serve_command {w : Word} {i : Instr} (good : decode w = .command i) (ok : s.flags.fault = false) :
    serve (.regWrite 0 w) s = exec i s.endWindow := by
  simp [serve, offerCommand, good, ok]

/-- With the host quiet a busy engine's step is a step of the generator, the quiet event taken off. -/
theorem step_generator (busy : s.flags.busy = true)
    (quiet : s.port.events = [] ∨ ∃ rest, s.port.events = .quiet :: rest) :
    step s = .next (genStep (s.setEvents s.port.events.tail)) := by
  obtain next | ⟨rest, next⟩ := quiet
  · have same : s.setEvents s.port.events.tail = s := by rw [next, List.tail_nil, ← next]; rfl
    rw [step_busy next busy, same]
  · rw [step_of_event next, next]
    exact engineMove_busy (s := s.setEvents rest) busy

/-- A register read of an idle engine with nothing held, STATUS among the registers, answers and ends the window of the
last command. -/
theorem step_regRead {num : Nat} {rest : List HostEvent} (idle : s.flags.busy = false) (held : s.port.held = [])
    (next : s.port.events = .access (.regRead num) :: rest) :
    step s = .next ((s.setEvents rest).endWindow.reply (regRead num (s.setEvents rest))) := by
  rw [step_of_event next]
  by_cases status : num = 1
  · subst status
    simp [takeEvent, arrive, HostAccess.isStatusRead, readStatus, idle, regRead, HostReg.ofNum, readReg]
  · exact arrive_idle (s := s.setEvents rest) (by simpa using status) idle held

/-- A register write other than to CMD, of an idle engine with nothing held, faulted or not. -/
theorem step_regWrite {num : Nat} {x : Word} {rest : List HostEvent} (other : num ≠ 0) (idle : s.flags.busy = false)
    (held : s.port.held = []) (next : s.port.events = .access (.regWrite num x) :: rest) :
    step s = .next (regWrite num x (s.setEvents rest).endWindow) := by
  rw [step_of_event next]
  refine (arrive_idle (s := s.setEvents rest) (by simp) idle held).trans ?_
  simp only [serve, other, if_false]

end

/-- Settles O5: the access completes at once or is the oldest held one, and a CMD write that completes executes its
command. -/
theorem stepExecutesTheDecodedCommand : Obligations.StepExecutesTheDecodedCommand := by
  intro s w i rest later good idle ok
  refine ⟨fun next held => ?_, fun next held => ?_, fun next held => ?_⟩
  · rw [step_of_event next]
    exact (arrive_idle (s := s.setEvents rest) (by simp) idle held).trans (serve_command good ok)
  · rw [step_of_noEvent next, engineMove_held idle held]
    exact serve_command good ok
  · rw [step_of_event next]
    exact (engineMove_held (s := s.setEvents rest) idle held).trans (serve_command good ok)

/-- The bits `decodeTableWord` reads a command from are a value that decodes to it. -/
theorem decode_tableValue {nbits w : Nat} {i : Instr} (h : decodeTableWord nbits w = some i) :
    decode (tableValue nbits w) = .command i := by
  unfold decodeTableWord at h
  split at h
  · cases h; assumption
  · cases h

/-- Settles O6: the placed word is a CMD write that arrives next. -/
theorem stepExecutesTheFetchWord : Obligations.StepExecutesTheFetchWord := by
  intro s nbits w i good idle ok held
  have arriving := stepExecutesTheDecodedCommand (s.withFetchWord nbits w) _ i s.port.events [] (decode_tableValue good)
    idle ok
  exact arriving.1 rfl held

/-- Settles O10: a STATUS read is never held, and it answers what `statusRead` gives. -/
theorem statusReadAlwaysCompletes : Obligations.StatusReadAlwaysCompletes := by
  intro s rest next
  obtain ⟨ctx, stream, flags, ops, res, seq, msg, params, events, held, during⟩ := readStatus_frame (s.setEvents rest)
  refine ⟨readStatus (s.setEvents rest), statusRead (s.setEvents rest), ?_, ?_, events, held, flags, ctx, stream, ops,
    res, seq, params, fun a => by rw [msg]; rfl, ?_, ?_, during⟩
  · exact step_of_event next
  · unfold readStatus; split <;> rfl
  · intro idle
    simp only [statusRead, State.setEvents_flags, idle]
    rfl
  · intro y busy view
    simp [statusRead, busy, view]

/-- Settles O12: a command that ran without a fault has latched the view, and the read answers it. -/
theorem statusReadDuringCommandShowsOldFlags : Obligations.StatusReadDuringCommandShowsOldFlags := by
  intro i s t u rest ran ok next read
  rw [step_of_event next] at read
  cases read
  obtain r | ⟨code, -, rfl⟩ := exec_cases ran
  · have view : t.port.during = some (statusWord s ||| 1) := r.ranFrom.2
    simp [readStatusDuring, view]
  · simp at ok

end Sys2Proof.Machine

/-! SUPPORT. What a step changes (spec/10_state.md R49, spec/44_secretgen.md R216), the order of the held accesses
(spec/20_memory.md R75), and the lines of a program that read and write registers (spec/30_encoding.md R103). -/

namespace Sys2Proof.Machine

/-! ### Which command writes which register -/

/-- Between `s` and `t` a register changed only where the command `c`, or the generator, writes it (R49). -/
def OnlyWrittenBy (c : Option Instr) (gen : Prop) (s t : State) : Prop :=
  (t.ctx ≠ s.ctx → ∃ v, c = some (.initD v) ∨ c = some (.initS v) ∨ c = some (.initG v)) ∧
  (t.stream ≠ s.stream → c = some .sopen ∨ c = some .write) ∧
  (t.res.digest ≠ s.res.digest → c = some .hash ∨ c = some .finish) ∧
  (t.res.res0 ≠ s.res.res0 → ∃ v, c = some (.mum v) ∨ c = some (.mix v)) ∧
  (t.res.res1 ≠ s.res.res1 → ∃ v, c = some (.mum v)) ∧ (t.res.gsec ≠ s.res.gsec → gen)

section
variable {s t : State} {c : Option Instr} {gen : Prop}

/-- Where the contexts and the results stay, any command may be blamed. -/
theorem OnlyWrittenBy.of_same (ctx : t.ctx = s.ctx) (stream : t.stream = s.stream) (res : t.res = s.res) :
    OnlyWrittenBy c gen s t := by
  simp [OnlyWrittenBy, ctx, stream, res]

/-- A command that runs writes its own registers. -/
theorem Ran.onlyWrittenBy {i : Instr} (r : Ran s i t) : OnlyWrittenBy (some i) gen s t := by
  cases r with
  | mum | mix => simp [OnlyWrittenBy]
  | initD | initS | initG => simp [OnlyWrittenBy]
  | hash | finish => simp [OnlyWrittenBy]
  | sopen | write => simp [OnlyWrittenBy]
  | gensec => exact .of_same rfl rfl rfl

/-- Entering the fault state writes ERRINFO alone among the results. -/
theorem raiseFault_onlyWrittenBy (s : State) (code : ErrCode) (w : Word) :
    OnlyWrittenBy c gen s (s.raiseFault code w) := by
  simp [OnlyWrittenBy]

/-- An access that completes changes these registers only by the command it starts. -/
theorem Served.onlyWrittenBy {a : HostAccess} (h : Served s a t) : OnlyWrittenBy (commandIn a s) gen s t := by
  cases h with
  | regRead | refusedCommand | memRead | memWrite => exact .of_same rfl rfl rfl
  | regWrite n x =>
    obtain ⟨o, ho⟩ := regWrite_eq_setOps n x s.endWindow
    exact ho ▸ .of_same rfl rfl rfl
  | illegal w => exact raiseFault_onlyWrittenBy s.endWindow _ w
  | command w i _ ok good ran =>
    have command : commandIn (.regWrite 0 w) s = some i := by simp [commandIn, ok, good]
    rw [command]
    obtain r | ⟨code, -, rfl⟩ := exec_cases ran
    · exact r.onlyWrittenBy (s := s.endWindow)
    · exact raiseFault_onlyWrittenBy s.endWindow code _

/-- Taking the access off the port does not change which command it starts. -/
theorem Completes.commandIn_eq {s' : State} {a : HostAccess} (h : Completes s a s') : commandIn a s' = commandIn a s := by
  obtain ⟨-, -, flags, -⟩ := h.frame
  simp only [commandIn, flags]

/-- The generator writes no result but GSEC. -/
theorem genStep_onlyWrittenBy (s : State) (running : gen) : OnlyWrittenBy c gen s (genStep s) := by
  obtain ⟨ctx, stream, -⟩ := genStep_frame s
  have res : (genStep s).res.digest = s.res.digest ∧ (genStep s).res.res0 = s.res.res0 ∧
      (genStep s).res.res1 = s.res.res1 := by
    unfold genStep; cases s.seq.gph <;> exact ⟨rfl, rfl, rfl⟩
  simp [OnlyWrittenBy, ctx, stream, running, res]

end

/-- Settles O55: a step that is no reset moves the generator, lets an access complete, or touches only the port. -/
theorem onlyItsCommandsWriteARegister : Obligations.OnlyItsCommandsWriteARegister := by
  intro s t next notReset
  change OnlyWrittenBy (commandOf s) (generatorNext s) s t
  cases step_cases next with
  | reset rest reset => exact absurd ⟨rest, reset⟩ notReset
  | statusDuring rest => exact .of_same rfl rfl rfl
  | status rest =>
    obtain ⟨ctx, stream, -, -, res, -⟩ := readStatus_frame (s.setEvents rest)
    exact .of_same ctx stream res
  | hold | idle | idleQuiet => exact .of_same rfl rfl rfl
  | generator none busy => exact genStep_onlyWrittenBy s ⟨busy, .inl none⟩
  | generatorQuiet rest quiet busy => exact genStep_onlyWrittenBy (s.setEvents rest) ⟨busy, .inr ⟨rest, quiet⟩⟩
  | access a s' _ idle which served =>
    obtain ⟨ctx, stream, -, -, res, -⟩ := which.frame
    have written := served.onlyWrittenBy (gen := generatorNext s)
    rw [which.commandIn_eq, ← which.commandOf_eq idle] at written
    simpa only [OnlyWrittenBy, ctx, stream, res] using written

/-! ### The phases of the generator -/

/-- The tests of a candidate leave the counter, the number of accepted words and the variant alone. -/
theorem genOdd_frame (q : Sequencer) : (genOdd q).g = q.g ∧ (genOdd q).gi = q.gi ∧ (genOdd q).gvar = q.gvar := by
  unfold genOdd; split <;> exact ⟨rfl, rfl, rfl⟩

theorem genHam_frame (gsec : Secret) (q : Sequencer) :
    (genHam gsec q).g = q.g ∧ (genHam gsec q).gi = q.gi ∧ (genHam gsec q).gvar = q.gvar := by
  unfold genHam
  split
  · exact ⟨rfl, rfl, rfl⟩
  · split <;> exact ⟨rfl, rfl, rfl⟩

/-- The held variant never changes, the number of accepted words and GSEC in G_ACCEPT alone, the counter in G_DRAW
alone, the flags and the latched view in G_DONE alone. -/
theorem genStep_keeps (s : State) :
    (genStep s).seq.gvar = s.seq.gvar ∧
    (s.seq.gph ≠ .accept → (genStep s).res = s.res ∧ (genStep s).seq.gi = s.seq.gi) ∧
    (s.seq.gph ≠ .draw → (genStep s).seq.g = s.seq.g) ∧
    (s.seq.gph ≠ .done → (genStep s).flags = s.flags ∧ (genStep s).port.during = s.port.during) := by
  cases phase : s.seq.gph with
  | idle => simp [genStep, phase]
  | draw => rw [genStep_draw phase]; exact ⟨rfl, fun _ => ⟨rfl, rfl⟩, fun h => absurd rfl h, fun _ => ⟨rfl, rfl⟩⟩
  | odd =>
    obtain ⟨g, gi, gvar⟩ := genOdd_frame s.seq
    rw [genStep_odd phase]
    exact ⟨gvar, fun _ => ⟨rfl, gi⟩, fun _ => g, fun _ => ⟨rfl, rfl⟩⟩
  | ham =>
    obtain ⟨g, gi, gvar⟩ := genHam_frame s.res.gsec s.seq
    rw [genStep_ham phase]
    exact ⟨gvar, fun _ => ⟨rfl, gi⟩, fun _ => g, fun _ => ⟨rfl, rfl⟩⟩
  | accept => rw [genStep_accept phase]; exact ⟨rfl, fun h => absurd rfl h, fun _ => rfl, fun _ => ⟨rfl, rfl⟩⟩
  | done => rw [genStep_done phase]; exact ⟨rfl, fun _ => ⟨rfl, rfl⟩, fun _ => rfl, fun h => absurd rfl h⟩

/-- The drawn byte, read from the table as a list (R212). -/
theorem genByte_eq_getD (p : Params) (v : Variant) (g : Word) :
    genByte p v g = p.genTable.toList.getD ((mix v g (g ^^^ p.genXor)).toNat % 70) 0 := by
  have inside : (mix v g (g ^^^ p.genXor)).toNat % 70 < 70 := Nat.mod_lt _ (by decide)
  simp [genByte, inside]

/-- Settles O42: the step is `genStep` on the state with the quiet event taken off, which goes by the phase. -/
theorem generatorPhases : Obligations.GeneratorPhases := by
  intro s busy quiet
  have moved := step_generator busy quiet
  obtain ⟨rest, tail⟩ : ∃ rest, s.port.events.tail = rest := ⟨_, rfl⟩
  rw [tail] at moved
  obtain ⟨ctx, stream, ops, msg, params, events, held, replies⟩ := genStep_frame (s.setEvents rest)
  obtain ⟨gvar, notAccept, notDraw, notDone⟩ := genStep_keeps (s.setEvents rest)
  refine ⟨_, moved, events.trans tail.symm, fun h => (notDone h).2, ctx, stream, ops,
    fun a => by rw [msg]; rfl, params, held, replies, gvar, notAccept, fun h => (notDone h).1, notDraw, ?_, ?_, ?_, ?_, ?_⟩
  · intro phase
    rw [genStep_draw (s := s.setEvents rest) phase, ← genByte_eq_getD]
    exact ⟨rfl, rfl, rfl, rfl, rfl⟩
  · intro phase
    rw [genStep_odd (s := s.setEvents rest) phase, State.setSeq_seq, State.setEvents_seq]
    refine ⟨fun even => ?_, fun odd => ?_⟩
    · rw [genOdd_reject even]; exact ⟨rfl, rfl, rfl, rfl⟩
    · rw [genOdd_pass odd]; exact ⟨rfl, rfl, rfl, rfl⟩
  · intro phase
    rw [genStep_ham (s := s.setEvents rest) phase]
    refine ⟨fun all => genHam_end _ all, fun more far => genHam_reject more ?_, fun more half => genHam_pass more ?_⟩
    · exact decide_eq_false far
    · exact decide_eq_true half
  · intro phase
    rw [genStep_accept (s := s.setEvents rest) phase]
    exact ⟨rfl, rfl, rfl, rfl, rfl, rfl⟩
  · intro phase
    rw [genStep_done (s := s.setEvents rest) phase]
    exact ⟨rfl, rfl, rfl⟩

/-! ### Held accesses, and the host that runs a program -/

/-- A step lets held accesses go, or appends the one that arrives. -/
theorem Moved.held {s t : State} (h : Moved s t) : t.port.held.length ≤ s.port.held.length ∨
    ∃ a rest, s.port.events = .access a :: rest ∧ t.port.held = s.port.held ++ [a] := by
  cases h with
  | reset | statusDuring | idle | idleQuiet => exact .inl (Nat.le_refl _)
  | status rest =>
    obtain ⟨-, -, -, -, -, -, -, -, -, held, -⟩ := readStatus_frame (s.setEvents rest)
    exact .inl (Nat.le_of_eq (congrArg _ held))
  | hold a rest next => exact .inr ⟨a, rest, next, rfl⟩
  | generator =>
    obtain ⟨-, -, -, -, -, -, held, -⟩ := genStep_frame s
    exact .inl (Nat.le_of_eq (congrArg _ held))
  | generatorQuiet rest =>
    obtain ⟨-, -, -, -, -, -, held, -⟩ := genStep_frame (s.setEvents rest)
    exact .inl (Nat.le_of_eq (congrArg _ held))
  | access a s' _ idle which served =>
    rw [served.held]
    cases which with
    | arriving => exact .inl (Nat.le_refl _)
    | heldEmpty later _ held | heldQuiet later _ _ held => exact .inl (by simp [held])

/-- A host that runs a program never has more than one access held (R103): it issues one only when none is. -/
theorem Turned.held {h h' : HostRun} (turned : Turned h h') (one : h.engine.port.held.length ≤ 1) :
    h'.engine.port.held.length ≤ 1 := by
  cases turned with
  | quiet s moved | reset s moved =>
    rw [HostRun.bind_engine]
    obtain fewer | ⟨a, rest, next, -⟩ := (step_cases moved).held
    · exact fewer.trans one
    · cases next
  | issued d rest a s none line access moved =>
    rw [HostRun.bind_engine]
    obtain fewer | ⟨b, -, -, held⟩ := (step_cases moved).held
    · exact fewer.trans one
    · simp [held, none]

/-- A turn that is the engine's takes up no line. -/
theorem HostRun.advance_lines {e : HostEvent} {h h' : HostRun} (adv : h.advance e = .next h') : h'.lines = h.lines := by
  obtain ⟨s, -, rfl⟩ := HostRun.advance_cases adv
  exact HostRun.bind_lines _

/-- Only a turn in which the host goes on, with nothing held, takes up a line, and it takes the next one. -/
theorem HostRun.turn_takesLine {t : Turn} {h h' : HostRun} (next : h.turn t = .next h') (taken : h'.lines ≠ h.lines) :
    h.engine.port.held = [] ∧ t = .issue ∧ ∃ d, h.lines = d :: h'.lines := by
  cases t with
  | wait => exact absurd (HostRun.advance_lines (e := .quiet) (h := h) next) taken
  | reset => exact absurd (HostRun.advance_lines (e := .reset) (h := h) next) taken
  | issue =>
    cases HostRun.turn_cases next with
    | quiet | reset => simp at taken
    | issued d rest a s none line => exact ⟨none, rfl, d, by simpa using line⟩

/-- Settles O11: the engine's side by the equations of a step, the program's by what a turn can do. -/
theorem heldAccessesCompleteInOrder : Obligations.HeldAccessesCompleteInOrder := by
  refine ⟨fun s idle => ⟨fun next held => ?_, fun rest next held => ?_, fun a later next held => ?_,
    fun a later rest next held => ?_, fun a rest next notStatus held => ?_⟩,
    fun h t => ⟨fun held => ?_, fun h' next taken => HostRun.turn_takesLine next taken,
      fun h' next one => (HostRun.turn_cases next).held one⟩⟩
  · exact step_idle next idle held
  · rw [step_of_event next]
    exact engineMove_nothingHeld (s := s.setEvents rest) idle held
  · rw [step_of_noEvent next]
    exact engineMove_held idle held
  · rw [step_of_event next]
    exact engineMove_held (s := s.setEvents rest) idle held
  · rw [step_of_event next]
    exact arrive_waits (s := s.setEvents rest) notStatus held
  · simp [HostRun.turn, held]

/-- The host's next line, with nothing held: its access is the next event of the engine (R103). -/
theorem HostRun.turn_issue {h : HostRun} {d : Directive} {rest : List Directive} {a : HostAccess} {s : State}
    (held : h.engine.port.held = []) (line : h.lines = d :: rest) (access : Directive.access h.names d = some a)
    (moved : step (h.engine.setEvents (.access a :: h.engine.port.events)) = .next s) :
    h.turn .issue = .next (HostRun.bind { h with engine := s, lines := rest, waiting := Directive.binds d }) := by
  simp [HostRun.turn, HostRun.issue, HostRun.advance, held, line, access, moved]

/-- The register map as a table: what a read of each number answers in an idle engine (R26, R46). -/
theorem regRead_eq_getD {s : State} (idle : s.flags.busy = false) (num : Nat) :
    regRead num s = [0, statusWord s, s.res.errInfo, s.ops.seedIn, s.ops.secIn.w0, s.ops.secIn.w1, s.ops.secIn.w2,
      s.ops.secIn.w3, s.ops.ptr, s.ops.len, s.ops.opA, s.ops.opB, s.res.res0, s.res.res1, s.res.digest, 0,
      s.res.gsec.w0, s.res.gsec.w1, s.res.gsec.w2, s.res.gsec.w3].getD num 0 := by
  have status : statusRead s = statusWord s := by simp [statusRead, idle]
  by_cases small : num < 20
  · rw [← status]
    interval_cases num <;> rfl
  · rw [regRead_of_ge (by omega)]
    exact (List.getD_eq_default _ _ (by simpa using small)).symm

/-- Settles O50: a read of an idle engine completes at once, and the line's name takes its answer. -/
theorem registerReads : Obligations.RegisterReads := by
  refine ⟨fun s num rest idle held next => ?_, fun h r n rest idle held line => ?_⟩
  · exact ⟨_, _, step_regRead idle held next, rfl, rfl, rfl, rfl, rfl, rfl, rfl, fun _ => rfl,
      regRead_eq_getD (s := s.setEvents rest) idle num⟩
  · have moved := step_regRead (s := h.engine.setEvents (.access (.regRead r.num) :: h.engine.port.events)) idle held rfl
    refine ⟨_, _, moved, rfl, ?_⟩
    rw [HostRun.turn_issue held line rfl moved]
    exact congrArg _ (HostRun.bind_some held rfl rfl)

/-- The operand registers after a write to each number (R26, R46). -/
theorem regWrite_ops (num : Nat) (x : Word) (s : State) :
    (regWrite num x s).ops =
      { seedIn := if num = 0x03 then x else s.ops.seedIn
        secIn := ⟨if num = 0x04 then x else s.ops.secIn.w0, if num = 0x05 then x else s.ops.secIn.w1,
          if num = 0x06 then x else s.ops.secIn.w2, if num = 0x07 then x else s.ops.secIn.w3⟩
        ptr := if num = 0x08 then x else s.ops.ptr
        len := if num = 0x09 then x else s.ops.len
        opA := if num = 0x0A then x else s.ops.opA
        opB := if num = 0x0B then x else s.ops.opB } := by
  by_cases small : num < 20
  · interval_cases num <;> rfl
  · rw [regWrite_of_ge (by omega)]
    simp (disch := omega) only [if_neg]

/-- Settles O51: a write of an idle engine completes at once, and a name stands for the value it was bound to last. -/
theorem registerWrites : Obligations.RegisterWrites := by
  refine ⟨fun s num x rest other idle held next => ?_, fun h r n x names rest s held bound line moved => ?_⟩
  · refine ⟨_, step_regWrite other idle held next, ?_⟩
    have written := regWrite_ops num x (s.setEvents rest).endWindow
    obtain ⟨o, ho⟩ := regWrite_eq_setOps num x (s.setEvents rest).endWindow
    rw [ho] at written ⊢
    exact ⟨rfl, rfl, rfl, rfl, rfl, fun _ => rfl, congrArg Operands.seedIn written, congrArg Operands.secIn written,
      congrArg Operands.ptr written, congrArg Operands.len written, congrArg Operands.opA written,
      congrArg Operands.opB written⟩
  · have access : Directive.access h.names (.wr r (.name n)) = some (.regWrite r.num x) := by
      simp [Directive.access, Value.eval, bound]
    rw [HostRun.turn_issue held line access moved]
    exact congrArg _ (HostRun.bind_none rfl)

end Sys2Proof.Machine

/-! SUPPORT. The host's path to the message memory and what the engine does there (spec/20_memory.md R62, R64, R74, R75),
HASH over its chunk (spec/42_oneshot.md R150), and the checked reads of the hash and of FINISH (spec/20_memory.md R82). -/

namespace Sys2Proof.Machine

/-! ### Accesses of a busy engine -/

/-- A busy engine holds every access but a STATUS read (R75). -/
theorem arrive_busy {s : State} {a : HostAccess} (notStatus : a ≠ .regRead 1) (busy : s.flags.busy = true) :
    arrive a s = .next (s.hold a) := by
  simp [arrive, isStatusRead_eq_false notStatus, busy]

/-- Settles O9: the access arrives at a busy engine and is held. -/
theorem busyEngineHoldsAccesses : Obligations.BusyEngineHoldsAccesses := by
  intro s a rest busy notStatus next
  rw [step_of_event next]
  exact arrive_busy (s := s.setEvents rest) notStatus busy

/-! ### Who writes the message memory -/

/-- An access that completes leaves the memory as it is unless it is the host's own write there. -/
theorem Served.msg {s t : State} {a : HostAccess} (h : Served s a t) :
    t.msg = s.msg ∨ ∃ addr n v, a = .memWrite addr n v := by
  cases h with
  | regRead | refusedCommand | illegal | memRead => exact .inl rfl
  | regWrite n x =>
    obtain ⟨o, ho⟩ := regWrite_eq_setOps n x s.endWindow
    exact .inl (by rw [ho]; rfl)
  | command w i _ ok good ran =>
    obtain r | ⟨_, _, rfl⟩ := exec_cases ran
    · obtain ⟨-, msg, -⟩ := r.frame
      exact .inl msg
    · exact .inl rfl
  | memWrite addr n v => exact .inr ⟨addr, n, v, rfl⟩

/-- A step leaves the memory as it is unless an idle engine lets the host's own write there complete. -/
theorem Moved.msg {s t : State} (h : Moved s t) :
    t.msg = s.msg ∨ s.flags.busy = false ∧ ∃ s' addr n v, Completes s (.memWrite addr n v) s' := by
  cases h with
  | reset | statusDuring | hold | idle | idleQuiet => exact .inl rfl
  | status rest =>
    obtain ⟨-, -, -, -, -, -, msg, -⟩ := readStatus_frame (s.setEvents rest)
    exact .inl msg
  | generator =>
    obtain ⟨-, -, -, msg, -⟩ := genStep_frame s
    exact .inl msg
  | generatorQuiet rest =>
    obtain ⟨-, -, -, msg, -⟩ := genStep_frame (s.setEvents rest)
    exact .inl msg
  | access a s' _ idle which served =>
    obtain ⟨-, -, -, -, -, -, msg, -⟩ := which.frame
    obtain same | ⟨addr, n, v, rfl⟩ := served.msg
    · exact .inl (same.trans msg)
    · exact .inr ⟨idle, s', addr, n, v, which⟩

/-- Settles O56: a step that changes the memory completes a host write, so it is taken while BUSY = 0 and executes no
command. -/
theorem theEngineNeverWritesMemory : Obligations.TheEngineNeverWritesMemory := by
  intro s t next engine
  obtain same | ⟨idle, s', addr, n, v, which⟩ := (step_cases next).msg
  · exact fun a => by rw [same]
  · have noCommand : commandOf s = none := which.commandOf_eq idle
    simp [noCommand, idle] at engine

/-! ### The host's reads and writes of the message memory -/

/-- Up to 8 bytes fit the port's 64 bits. -/
theorem Memory.toNat_readLE (m : Memory) (a : Nat) {n : Nat} (h : n ≤ 8) :
    (m.readLE a n).toNat = leNat (m.readBytes a n) := by
  have small : leNat (m.readBytes a n) < 256 ^ n := by simpa using leNat_lt (m.readBytes a n)
  have width : 256 ^ n ≤ 256 ^ 8 := Nat.pow_le_pow_right (by decide) h
  rw [Memory.readLE, BitVec.toNat_ofNat, Nat.mod_eq_of_lt (by omega)]

theorem getElem_leBytes_toNat {n i : Nat} (v : Word) (h : i < (leBytes n v).length) :
    (leBytes n v)[i].toNat = v.toNat / 256 ^ i % 256 := by
  simp [leBytes, Nat.shiftRight_eq_div_pow, Nat.pow_mul]

/-- The bytes a host write has stored read back. -/
theorem Memory.readBytes_writeLE {m : Memory} (hm : m.wf) (a n : Nat) (v : Word) :
    (m.writeLE a n v).readBytes a n = leBytes n v := by
  refine List.ext_getElem (by simp) fun i _ hi => ?_
  simpa [Memory.readBytes, Memory.writeLE] using Memory.read_writeBytes_same hm a (leBytes n v) hi

section
variable {s : State} {a n : Nat} {v : Word} {rest : List HostEvent}

theorem memRead_inside (low : 1 ≤ n) (high : n ≤ 8) (inside : a + n ≤ s.params.msgBytes) :
    memRead a n s = .next (s.reply (s.msg.readLE a n)) := by
  rw [memRead, if_neg (by omega), if_neg (by omega)]

theorem memRead_outside (low : 1 ≤ n) (high : n ≤ 8) (outside : s.params.msgBytes < a + n) :
    memRead a n s = .fault .hostMemOutside := by
  rw [memRead, if_neg (by omega), if_pos outside]

theorem memRead_width (width : n = 0 ∨ 8 < n) : memRead a n s = .refused .hostMemWidth := by
  rw [memRead, if_pos width]

theorem memWrite_inside (low : 1 ≤ n) (high : n ≤ 8) (inside : a + n ≤ s.params.msgBytes) :
    memWrite a n v s = .next (s.setMsg (s.msg.writeLE a n v)) := by
  rw [memWrite, if_neg (by omega), if_neg (by omega)]

theorem memWrite_outside (low : 1 ≤ n) (high : n ≤ 8) (outside : s.params.msgBytes < a + n) :
    memWrite a n v s = .fault .hostMemOutside := by
  rw [memWrite, if_neg (by omega), if_pos outside]

theorem memWrite_width (width : n = 0 ∨ 8 < n) : memWrite a n v s = .refused .hostMemWidth := by
  rw [memWrite, if_pos width]

/-- A host read of the memory completes at once in an idle engine with nothing held. -/
theorem step_memRead (idle : s.flags.busy = false) (held : s.port.held = [])
    (next : s.port.events = .access (.memRead a n) :: rest) :
    step s = memRead a n (s.setEvents rest).endWindow := by
  rw [step_of_event next]
  exact arrive_idle (s := s.setEvents rest) (by simp) idle held

/-- And so does a host write. -/
theorem step_memWrite (idle : s.flags.busy = false) (held : s.port.held = [])
    (next : s.port.events = .access (.memWrite a n v) :: rest) :
    step s = memWrite a n v (s.setEvents rest).endWindow := by
  rw [step_of_event next]
  exact arrive_idle (s := s.setEvents rest) (by simp) idle held

end

/-- Settles O52: the write completes at once, and its memory is `writeLE`'s. -/
theorem hostMemoryWrites : Obligations.HostMemoryWrites := by
  intro s a v n rest wf low high inside idle held next
  refine ⟨_, (step_memWrite idle held next).trans (memWrite_inside low high inside), fun i hi => ?_, fun x outside => ?_,
    ?_, rfl, rfl, rfl, rfl, rfl, rfl⟩
  · have stored : i < (leBytes n v).length := by simpa using hi
    exact (congrArg _ (Memory.read_writeBytes_same wf a _ stored)).trans (getElem_leBytes_toNat v stored)
  · exact Memory.read_writeBytes_other _ a (leBytes n v) (by simpa using outside)
  · rw [Memory.toNat_readLE _ _ high, ← leNat_leBytes]
    exact congrArg leNat (Memory.readBytes_writeLE wf a n v)

/-- Settles O53: the access completes at once, and its width and range decide what it answers. -/
theorem hostMemoryReads : Obligations.HostMemoryReads := by
  intro s a v n rest idle held
  refine ⟨fun low high inside next => ?_, fun next => ?_⟩
  · exact ⟨_, _, (step_memRead idle held next).trans (memRead_inside low high inside), rfl,
      Memory.toNat_readLE s.msg a high, rfl, rfl, rfl, rfl, rfl, rfl, fun _ => rfl⟩
  · obtain next | next := next
    · rw [step_memRead idle held next]
      exact ⟨fun low high outside => memRead_outside low high outside, memRead_width⟩
    · rw [step_memWrite idle held next]
      exact ⟨fun low high outside => memWrite_outside low high outside, memWrite_width⟩

/-! ### HASH -/

/-- Settles O25: the two premises are HASH's two checks. -/
theorem hashWritesTheDigest : Obligations.HashWritesTheDigest := by
  intro s engine bounds
  have ran := Ran.hash engine ((chunkInRange_iff s).2 bounds)
  exact ⟨_, ran.exec, rfl, rfl, rfl, rfl, rfl, rfl, rfl, ran.memoryUnchanged, ran.ranFrom⟩

/-! ### Checked reads -/

section
variable (v : Variant) (k : Secret)

theorem checkedLe64_inside {m : List Byte} {o : Nat} (h : o + 8 ≤ m.length) : checkedLe64 m o = some (le64 m o) :=
  if_pos h

theorem checkedLe32_inside {m : List Byte} {o : Nat} (h : o + 4 ≤ m.length) : checkedLe32 m o = some (le32 m o) :=
  if_pos h

theorem checkedByte_inside {m : List Byte} {i : Nat} (h : i < m.length) : checkedByte m i = some (byteAt m i) :=
  if_pos h

/-- Each short regime reads only bytes a message of its lengths has (R152 to R156). -/
theorem checkedShortAB_eq (m : List Byte) : checkedShortAB m = some (shortAB m) := by
  by_cases empty : m.length = 0
  · simp [checkedShortAB, shortAB, empty]
  by_cases upTo3 : m.length ≤ 3
  · simp (disch := omega) [checkedShortAB, shortAB_upTo3 empty upTo3, empty, upTo3, checkedByte_inside]
  by_cases upTo7 : m.length ≤ 7
  · simp (disch := omega) [checkedShortAB, shortAB_upTo7 (not_le.1 upTo3) upTo7, empty, upTo3, upTo7,
      checkedLe32_inside]
  · simp (disch := omega) [checkedShortAB, shortAB_upTo16 (not_le.1 upTo7), empty, upTo3, upTo7, checkedLe64_inside]

theorem checkedBlock_eq (l : Lanes) {blk : List Byte} (h : blk.length = 48) :
    checkedBlock v k l blk = some (block48 v k l blk) := by
  simp (disch := omega) [checkedBlock, checkedLe64_inside, block48]

/-- The block loop folds a block only while more than 48 bytes remain (R161). -/
theorem checkedBlockLoop_eq (fuel : Nat) (l : Lanes) (m : List Byte) :
    checkedBlockLoop v k fuel l m = some (blockLoop v k fuel l m) := by
  induction fuel generalizing l m with
  | zero => rfl
  | succ fuel ih =>
    rw [checkedBlockLoop, blockLoop]
    split
    · rw [checkedBlock_eq v k l (by simp; omega)]
      exact ih _ _
    · rfl

/-- The round loop runs a round only while more than 16 bytes remain (R159). -/
theorem checkedRoundLoop_eq (fuel : Nat) (s : Word) (m : List Byte) :
    checkedRoundLoop v k fuel s m = some (roundLoop v k fuel s m) := by
  induction fuel generalizing s m with
  | zero => rfl
  | succ fuel ih =>
    rw [checkedRoundLoop, roundLoop]
    split
    · rw [checkedLe64_inside (by omega), checkedLe64_inside (by omega)]
      exact ih _ _
    · rfl

/-- The hash reads inside its message, whatever the message. -/
theorem checkedHash_eq (w : Word) (m : List Byte) : checkedHash v k w m = some (hashV v k w m) := by
  by_cases short : m.length ≤ 16
  · simp [checkedHash, short, checkedShortAB_eq, hashV_short v k w short]
  rw [hashV_long v k w (not_le.1 short), checkedHash, if_neg short, longSeed, foldBlocks]
  by_cases blocks : m.length > 48
  · simp (disch := omega) [blocks, checkedBlockLoop_eq, checkedRoundLoop_eq, checkedLe64_inside]
  · simp (disch := omega) [blocks, checkedRoundLoop_eq, checkedLe64_inside]

/-- The window FINISH rebuilds has 16 bytes for every OFF that occurs (R188). -/
theorem length_finishWindow {st : StreamCtx} (bound : st.off.toNat ≤ 48) : (finishWindow st).length = 16 := by
  by_cases whole : 16 ≤ st.off.toNat
  · simp [finishWindow, whole]
    omega
  · simp [finishWindow, whole]
    omega

/-- FINISH reads inside the buffer and the window. -/
theorem checkedFinish_eq {st : StreamCtx} (bound : st.off.toNat ≤ 48) :
    checkedFinish v k st = some (streamFinish v k st) := by
  have window := length_finishWindow bound
  by_cases short : st.tlen.toNat ≤ 16
  · simp [checkedFinish, streamFinish, short, checkedShortAB_eq]
  · simp (disch := simp [window]) [checkedFinish, streamFinish, short, checkedLe64_inside, finishRounds]

end

/-- Settles O28: every checked read of either lies inside, so the checks change nothing. -/
theorem everyReadIsInRange : Obligations.EveryReadIsInRange :=
  ⟨fun v k w m => checkedHash_eq v k w m, fun v k _ bound => checkedFinish_eq v k bound⟩

end Sys2Proof.Machine

/-! SUPPORT. The command word (spec/30_encoding.md R90 to R100, R109): a value is its fields, the checks of the decoder
and the rows of the opcode map each pin those fields down, and so a value is read as a command only when it is that
command's own word. -/

namespace Sys2Proof.Machine

/-! ### A value and its fields -/

/-- The low half of a value is its four fields (R91). -/
theorem setWidth_eq_fields (w : Word) : w.setWidth 32 =
    w.extractLsb' 12 20 ++ w.extractLsb' 10 2 ++ w.extractLsb' 8 2 ++ w.extractLsb' 0 8 := by
  have join (a n m : Nat) : w.extractLsb' (a + n) m ++ w.extractLsb' a n = w.extractLsb' a (m + n) :=
    BitVec.extractLsb'_append_extractLsb'_eq_extractLsb' rfl
  rw [join 10 2 20, join 8 2 22, join 0 8 24, BitVec.setWidth_eq_extractLsb' (by decide)]

/-- A value with a zero high half is its low half, zero-extended (R90). -/
theorem eq_setWidth_setWidth {w : Word} (high : w.extractLsb' 32 32 = 0) : w = (w.setWidth 32).setWidth 64 := by
  have halves : w.extractLsb' 32 32 ++ w.extractLsb' 0 32 = w :=
    (BitVec.extractLsb'_append_extractLsb'_eq_extractLsb' rfl).trans BitVec.extractLsb'_eq_self
  rw [high, ← BitVec.setWidth_eq_extractLsb' (by decide)] at halves
  exact halves.symm.trans (BitVec.setWidth_eq_append (by decide)).symm

@[simp] theorem Variant.bits_ofBits (b : BitVec 2) : (Variant.ofBits b).bits = b := by
  revert b; decide

/-! ### The decoder -/

theorem decodeFormatV_eq_command {ssel : BitVec 2} {i j : Instr} :
    decodeFormatV ssel i = .command j ↔ ssel = 0 ∧ i = j := by
  unfold decodeFormatV
  split
  next s => simp [s]
  next s => simpa using fun z => absurd z s

theorem decodeFormatN_eq_command {v ssel : BitVec 2} {i j : Instr} :
    decodeFormatN v ssel i = .command j ↔ ssel = 0 ∧ v = 0 ∧ i = j := by
  unfold decodeFormatN
  split
  next s => simpa using fun z => absurd z s
  next s =>
  split
  next f => simpa using fun _ z => absurd z f
  next f => simp [not_not.1 s, not_not.1 f]

/-- The INIT command the decoder reads packs to the fields it was read from (R94, R97). -/
theorem encode_of_decodeInit {v ssel : BitVec 2} {i : Instr} (h : decodeInit v ssel = .command i) :
    encode i = packWord ssel v 0x10 := by
  unfold decodeInit at h
  split at h
  next s => cases h; simp [encode, BitVec.eq_of_toNat_eq (y := 0) s]
  next s => cases h; simp [encode, BitVec.eq_of_toNat_eq (y := 1) s]
  next s => cases h; simp [encode, BitVec.eq_of_toNat_eq (y := 2) s]
  next => cases h

section
variable {w : Word} {op : Nat} {i j : Instr} (high : w.extractLsb' 32 32 = 0) (zero : w.extractLsb' 12 20 = 0)
  (opcode : (w.extractLsb' 0 8).toNat = op)
include high zero opcode

/-- A value with zero upper bits is the word of the command that packs to its other fields (R91). -/
theorem eq_cmdValue_of_fields
    (enc : encode i = packWord (w.extractLsb' 10 2) (w.extractLsb' 8 2) (BitVec.ofNat 8 op)) : w = cmdValue i := by
  rw [← opcode, BitVec.ofNat_toNat, BitVec.setWidth_eq, packWord, ← zero, ← setWidth_eq_fields] at enc
  rw [cmdValue, enc]
  exact eq_setWidth_setWidth high

theorem eq_cmdValue_of_formatV (read : decodeFormatV (w.extractLsb' 10 2) j = .command i)
    (enc : encode j = packWord 0 (w.extractLsb' 8 2) (BitVec.ofNat 8 op)) : w = cmdValue i := by
  obtain ⟨ssel, rfl⟩ := decodeFormatV_eq_command.1 read
  exact eq_cmdValue_of_fields high zero opcode (by rw [enc, ssel])

theorem eq_cmdValue_of_formatN (read : decodeFormatN (w.extractLsb' 8 2) (w.extractLsb' 10 2) j = .command i)
    (enc : encode j = packWord 0 0 (BitVec.ofNat 8 op)) : w = cmdValue i := by
  obtain ⟨ssel, v, rfl⟩ := decodeFormatN_eq_command.1 read
  exact eq_cmdValue_of_fields high zero opcode (by rw [enc, ssel, v])

end

/-- A value that decodes to a command is that command's word: the decoder's checks leave no field free (R99, R100). -/
theorem eq_cmdValue_of_decode {w : Word} {i : Instr} (h : decode w = .command i) : w = cmdValue i := by
  unfold decode at h
  split at h
  · cases h
  next high =>
  split at h
  · cases h
  next zero =>
  replace high := not_not.1 high
  replace zero := not_not.1 zero
  split at h
  next mum => exact eq_cmdValue_of_formatV high zero mum h (by simp [encode])
  next mix => exact eq_cmdValue_of_formatV high zero mix h (by simp [encode])
  next init => exact eq_cmdValue_of_fields high zero init (encode_of_decodeInit h)
  next hash => exact eq_cmdValue_of_formatN high zero hash h rfl
  next sopen => exact eq_cmdValue_of_formatN high zero sopen h rfl
  next write => exact eq_cmdValue_of_formatN high zero write h rfl
  next finish => exact eq_cmdValue_of_formatN high zero finish h rfl
  next gensec => exact eq_cmdValue_of_formatV high zero gensec h (by simp [encode])
  next => cases h

/-- A command's own word decodes to it (R99, R100). -/
@[simp] theorem decode_cmdValue (i : Instr) : decode (cmdValue i) = .command i := by
  cases i with
  | mum v => exact (Laws.Encoding.mum v).2
  | mix v => exact (Laws.Encoding.mix v).2
  | initD v => exact (Laws.Encoding.initD v).2
  | initS v => exact (Laws.Encoding.initS v).2
  | initG v => exact (Laws.Encoding.initG v).2
  | hash => exact Laws.Encoding.hash.2
  | sopen => exact Laws.Encoding.sopen.2
  | write => exact Laws.Encoding.write.2
  | finish => exact Laws.Encoding.finish.2
  | gensec v => exact (Laws.Encoding.gensec v).2

/-- Settles O1: the decoder's checks determine every field, and each command's word passes them. -/
theorem decodeAnswersExactlyTheEncodedWord : Obligations.DecodeAnswersExactlyTheEncodedWord :=
  fun _ i => ⟨eq_cmdValue_of_decode, fun h => h ▸ decode_cmdValue i⟩

theorem decode_eq_command {w : Word} {i : Instr} : decode w = .command i ↔ w = cmdValue i :=
  decodeAnswersExactlyTheEncodedWord w i

/-! ### The 28 words -/

/-- The variants in the order of their numbers (R96). -/
def variants : List Variant := [.w64, .w64c, .w32, .w32c]

theorem mem_variants (v : Variant) : v ∈ variants := by cases v <;> decide

/-- The commands in the order R95 lists their words. -/
def commands : List Instr :=
  variants.map .mum ++ variants.map .mix ++ variants.map .initD ++ variants.map .initS ++ variants.map .initG ++
    [.hash, .sopen, .write, .finish] ++ variants.map .gensec

theorem mem_commands (i : Instr) : i ∈ commands := by
  cases i <;> simp [commands, mem_variants]

/-- R95 lists the words of the commands. -/
theorem legalWords_eq_map_encode : legalWords = commands.map encode := rfl

/-- Settles O2: the list is the list of the commands' words, so a value is on it when it is some command's word. -/
theorem legalCommandWordsAreTheListed28 : Obligations.LegalCommandWordsAreTheListed28 := by
  refine ⟨rfl, by decide, fun w => ?_⟩
  simp [decode_eq_command, legalWords_eq_map_encode, mem_commands, cmdValue]

/-- Settles O4: each worked encoding is its command's word, and the decoder names the fault of each illegal example. -/
theorem workedEncodingsDecode : Obligations.WorkedEncodingsDecode := by
  have illegal : [0x00000000, 0x00000111, 0x00000C10, 0x00000420, 0x00001001, 0x0000000100000001,
      0x00000003].map decode =
      [.illegal .opcode, .illegal .variantField, .illegal .secretSource, .illegal .secretSource, .illegal .zeroField,
        .illegal .highWord, .illegal .opcode] := rfl
  refine ⟨decode_cmdValue (.mum .w64), decode_cmdValue (.mum .w32c), decode_cmdValue (.mix .w64c),
    decode_cmdValue (.initD .w64), decode_cmdValue (.initS .w32), decode_cmdValue (.initG .w64c),
    decode_cmdValue .hash, decode_cmdValue .sopen, decode_cmdValue .write, decode_cmdValue .finish,
    decode_cmdValue (.gensec .w64), decode_cmdValue (.gensec .w32c), fun w listed i read => ?_⟩
  have answered := List.mem_map.2 ⟨w, listed, read⟩
  rw [illegal] at answered
  simp at answered

/-! ### The opcode map -/

theorem selects_iff {r : OpcodeRow} {w : Word} :
    r.selects w = true ↔ w.extractLsb' 32 32 = 0 ∧ w.setWidth 32 &&& r.mask = r.matchBits := by
  simp [OpcodeRow.selects]

/-- A row whose mask is all ones selects one value only. -/
theorem eq_of_selects_fixed {n : String} {m : BitVec 32} {w : Word}
    (h : (⟨n, m, 0xFFFFFFFF⟩ : OpcodeRow).selects w = true) : w = m.setWidth 64 := by
  obtain ⟨high, low⟩ := selects_iff.1 h
  rw [show m = w.setWidth 32 from low.symm.trans BitVec.and_allOnes]
  exact eq_setWidth_setWidth high

section
variable (z z' : BitVec 20) (s s' v v' : BitVec 2) (o o' : BitVec 8)

theorem fields_and : (z ++ s ++ v ++ o) &&& (z' ++ s' ++ v' ++ o') =
    (z &&& z') ++ (s &&& s') ++ (v &&& v') ++ (o &&& o') := by
  rw [BitVec.and_append, BitVec.and_append, BitVec.and_append]

theorem fields_or : (z ++ s ++ v ++ o) ||| (z' ++ s' ++ v' ++ o') =
    (z ||| z') ++ (s ||| s') ++ (v ||| v') ++ (o ||| o') := by
  rw [BitVec.or_append, BitVec.or_append, BitVec.or_append]

end

/-- The mask of a row with a variant field clears that field and no other (R95). -/
theorem and_variantMask_or (w : Word) :
    w.setWidth 32 &&& 0xFFFFFCFF ||| packWord 0 (w.extractLsb' 8 2) 0 = w.setWidth 32 := by
  have mask : (0xFFFFFCFF : BitVec 32) =
      BitVec.allOnes 20 ++ BitVec.allOnes 2 ++ (0 : BitVec 2) ++ BitVec.allOnes 8 := rfl
  rw [setWidth_eq_fields, mask, packWord, fields_and, fields_or]
  simp only [BitVec.and_allOnes, BitVec.ofNat_eq_ofNat, BitVec.and_zero, BitVec.or_zero, BitVec.zero_or]

/-- A row with a variant field selects the words that differ from its match in that field only. -/
theorem eq_of_selects_variant {n : String} {ssel : BitVec 2} {op : BitVec 8} {w : Word}
    (h : (⟨n, packWord ssel 0 op, 0xFFFFFCFF⟩ : OpcodeRow).selects w = true) :
    w = (packWord ssel (Variant.ofBits (w.extractLsb' 8 2)).bits op).setWidth 64 := by
  obtain ⟨high, low⟩ := selects_iff.1 h
  have join (v : BitVec 2) : packWord ssel 0 op ||| packWord 0 v 0 = packWord ssel v op := by
    simp only [packWord, fields_or, BitVec.ofNat_eq_ofNat, BitVec.or_zero, BitVec.zero_or]
  replace low : w.setWidth 32 &&& 0xFFFFFCFF = packWord ssel 0 op := low
  rw [Variant.bits_ofBits, ← join, ← low, and_variantMask_or]
  exact eq_setWidth_setWidth high

/-- Every value a row selects is the word of a command. -/
theorem exists_eq_cmdValue_of_selects {r : OpcodeRow} {w : Word} (row : r ∈ opcodeRows)
    (h : r.selects w = true) : ∃ i, w = cmdValue i := by
  simp only [opcodeRows, List.mem_cons, List.not_mem_nil, or_false] at row
  obtain rfl | rfl | rfl | rfl | rfl | rfl | rfl | rfl | rfl | rfl := row
  · exact ⟨.mum _, eq_of_selects_variant h⟩
  · exact ⟨.mix _, eq_of_selects_variant h⟩
  · exact ⟨.initD _, eq_of_selects_variant h⟩
  · exact ⟨.initS _, eq_of_selects_variant h⟩
  · exact ⟨.initG _, eq_of_selects_variant h⟩
  · exact ⟨.hash, eq_of_selects_fixed h⟩
  · exact ⟨.sopen, eq_of_selects_fixed h⟩
  · exact ⟨.write, eq_of_selects_fixed h⟩
  · exact ⟨.finish, eq_of_selects_fixed h⟩
  · exact ⟨.gensec _, eq_of_selects_variant h⟩

/-- A command's word is selected by the command's own row and by no other (R95). -/
theorem selects_cmdValue {r : OpcodeRow} (row : r ∈ opcodeRows) (i : Instr) :
    r.selects (cmdValue i) = true ↔ i.row = r.mnemonic := by
  have listed : ∀ i ∈ commands, ∀ r ∈ opcodeRows,
      r.selects (cmdValue i) = true ↔ i.row = r.mnemonic := by decide
  exact listed i (mem_commands i) r row

/-- Settles O3: what a row selects is a command's word, and a command's word is selected by its own row. -/
theorem opcodeRowSelectsItsCommands : Obligations.OpcodeRowSelectsItsCommands := by
  intro w r row
  constructor
  · intro h
    obtain ⟨i, rfl⟩ := exists_eq_cmdValue_of_selects row h
    exact ⟨i, decode_cmdValue i, (selects_cmdValue row i).1 h⟩
  · rintro ⟨i, read, own⟩
    obtain rfl := decode_eq_command.1 read
    exact (selects_cmdValue row i).2 own

end Sys2Proof.Machine

/-! SUPPORT. The multiply-mix primitive (spec/40_mulmix.md R120 to R125): the exact products of the two base variants, the
feedback of the condom variants, and the mix with its operands exchanged or with one of them zero. -/

namespace Sys2Proof.Machine

/-! ### The base variants -/

/-- The low half of the exact product (R121). -/
@[simp] theorem toNat_mumW64_fst (a b : Word) : (mumW64 a b).1.toNat = a.toNat * b.toNat % 2 ^ 64 :=
  BitVec.toNat_ofNat ..

/-- The high half of the exact product: it fits 64 bits, so nothing is narrowed away (R121). -/
@[simp] theorem toNat_mumW64_snd (a b : Word) : (mumW64 a b).2.toNat = a.toNat * b.toNat / 2 ^ 64 := by
  have product : a.toNat * b.toNat < 2 ^ 64 * 2 ^ 64 := Nat.mul_lt_mul'' a.isLt b.isLt
  exact (BitVec.toNat_ofNat ..).trans (Nat.mod_eq_of_lt (Nat.div_lt_of_lt_mul product))

/-- `rot32` in natural numbers: the low half comes above the high half (R9). -/
theorem toNat_rot32 (x : Word) : (rot32 x).toNat = 2 ^ 32 * (x.toNat % 2 ^ 32) + x.toNat / 2 ^ 32 := by
  have swapped : rot32 x = lo32 x ++ hi32 x := by rw [← rot32_append, hi32_append_lo32]
  rw [swapped, BitVec.toNat_append, ← Nat.shiftLeft_add_eq_or_of_lt (hi32 x).isLt, Nat.shiftLeft_eq, Nat.mul_comm,
    toNat_lo32, toNat_hi32]

/-- Settles O15: the two halves of the exact product, put together again. -/
theorem mumW64IsTheExactProduct : Obligations.MumW64IsTheExactProduct := by
  intro a b
  simp only [mum, toNat_mumW64_fst, toNat_mumW64_snd]
  exact Nat.div_add_mod ..

/-- Settles O16: each 32×32 product is exact, and `rot32` is the swap of halves. -/
theorem mumW32CombinesFourProducts : Obligations.MumW32CombinesFourProducts := by
  intro a b
  simp only [mum, mumW32, BitVec.toNat_xor, toNat_rot32, toNat_mul32, toNat_hi32, toNat_lo32, and_self]

/-! ### The condom variants -/

/-- Settles O17: the feedback is an exclusive-or of each operand with one element of the base variant's pair. -/
theorem condomVariantsFeedBackTheOperands : Obligations.CondomVariantsFeedBackTheOperands := by
  intro a b
  simp only [mum, feedBack, BitVec.toNat_xor, toNat_mumW64_fst, toNat_mumW64_snd, and_self]

/-- The two elements of a fed-back pair, exclusive-ored, hold both operands beside the pair's own exclusive-or. -/
theorem feedBack_fst_xor_snd (a b : Word) (p : Word × Word) :
    (feedBack a b p).1 ^^^ (feedBack a b p).2 = (a ^^^ b) ^^^ (p.1 ^^^ p.2) := by
  simp only [feedBack]
  ac_rfl

theorem mix_w64c (a b : Word) : mix .w64c a b = (a ^^^ b) ^^^ mix .w64 a b := feedBack_fst_xor_snd ..

theorem mix_w32c (a b : Word) : mix .w32c a b = (a ^^^ b) ^^^ mix .w32 a b := feedBack_fst_xor_snd ..

/-! ### The mix -/

theorem mix_w64_comm (a b : Word) : mix .w64 a b = mix .w64 b a := by
  simp only [mix, mum, mumW64, Nat.mul_comm]

/-- Exchanging the operands exchanges the two crossed products, which lie in different elements of the pair. -/
theorem mix_w32_comm (a b : Word) : mix .w32 a b = mix .w32 b a := by
  simp only [mix, mum, mumW32, mul32_comm (hi32 b), mul32_comm (lo32 b)]
  ac_rfl

/-- Settles O19: the base variants by the symmetry of the products, the condom variants by that of their base. -/
theorem mixIsSymmetric : Obligations.MixIsSymmetric := by
  intro v a b
  cases v with
  | w64 => exact mix_w64_comm a b
  | w64c => rw [mix_w64c, mix_w64c, mix_w64_comm, BitVec.xor_comm a]
  | w32 => exact mix_w32_comm a b
  | w32c => rw [mix_w32c, mix_w32c, mix_w32_comm, BitVec.xor_comm a]

theorem mul32_zero_left (y : BitVec 32) : mul32 0#32 y = 0#64 := by simp [mul32]

theorem mix_w64_zero_left (b : Word) : mix .w64 0 b = 0 := by simp [mix, mum, mumW64]

/-- A zero operand has zero halves, so all four products are zero (R123). -/
theorem mix_w32_zero_left (b : Word) : mix .w32 0 b = 0 := by
  have high : hi32 0#64 = 0#32 := by decide
  have low : lo32 0#64 = 0#32 := by decide
  have swapped : rot32 0#64 = 0#64 := by decide
  simp only [mix, mum, mumW32, BitVec.ofNat_eq_ofNat, high, low, mul32_zero_left, swapped, BitVec.xor_self]

theorem mix_w64c_zero_left (b : Word) : mix .w64c 0 b = b := by
  rw [mix_w64c, mix_w64_zero_left, BitVec.ofNat_eq_ofNat, BitVec.zero_xor, BitVec.xor_zero]

theorem mix_w32c_zero_left (b : Word) : mix .w32c 0 b = b := by
  rw [mix_w32c, mix_w32_zero_left, BitVec.ofNat_eq_ofNat, BitVec.zero_xor, BitVec.xor_zero]

/-- Settles O18: the zero on the left by the four products, the zero on the right by symmetry. -/
theorem mixOfZeroOperand : Obligations.MixOfZeroOperand := by
  intro b
  have left : mix .w64 0 b = 0 ∧ mix .w32 0 b = 0 ∧ mix .w64c 0 b = b ∧ mix .w32c 0 b = b :=
    ⟨mix_w64_zero_left b, mix_w32_zero_left b, mix_w64c_zero_left b, mix_w32c_zero_left b⟩
  have exchanged (v : Variant) : mix v b 0 = mix v 0 b := mixIsSymmetric v b 0
  simpa only [exchanged, and_assoc] using And.intro left left

end Sys2Proof.Machine

/-! SUPPORT. Engine construction: what every INIT leaves, whichever secret it takes (spec/41_init.md R140 to R145). -/

namespace Sys2Proof.Machine

/-- R142: the common effect of the INIT commands. One that runs to the construction with secret `k` latches `v`, `k` and the
seed of R140, sets INITD, clears SVALID and leaves the rest. -/
theorem exec_buildsContext {i : Instr} {s : State} {v : Variant} {k : Secret}
    (ran : Ran s i (s.startCommand.loadContext (construct v k s.ops.seedIn))) :
    ∃ t, exec i s = .next t ∧ t.ctx.var = v ∧ t.ctx.k = k ∧
      t.ctx.seed = s.ops.seedIn ^^^ mix v (s.ops.seedIn ^^^ k.w0) k.w1 ∧
      t.flags = { s.flags with initd := true, svalid := false } ∧
      t.stream = s.stream ∧ t.ops = s.ops ∧ t.res = s.res ∧ t.seq = s.seq ∧ t.params = s.params ∧
      MemoryUnchanged s t ∧ RanFrom s t :=
  ⟨_, ran.exec, rfl, rfl, rfl, rfl, rfl, rfl, rfl, rfl, rfl, ran.memoryUnchanged, ran.ranFrom⟩

/-- Settles O22: INIT.D has no check, and its secret is `defaultSecret`, the four words of R141. -/
theorem initDefaultBuildsTheContext : Obligations.InitDefaultBuildsTheContext :=
  fun v _ => exec_buildsContext (.initD v)

/-- Settles O23: INIT.S has no check, not even of SEC_IN. -/
theorem initSuppliedBuildsTheContext : Obligations.InitSuppliedBuildsTheContext :=
  fun v _ => exec_buildsContext (.initS v)

/-- Settles O24: GVALID = 1 is the only check of INIT.G. -/
theorem initGeneratedBuildsTheContext : Obligations.InitGeneratedBuildsTheContext :=
  fun v _ valid => exec_buildsContext (.initG v valid)

end Sys2Proof.Machine

/-! SUPPORT. The one-shot hash (spec/42_oneshot.md R151 to R165): the operands of each short regime as little-endian
values of the bytes they are read from, and the running seed of a long message by counts. -/

namespace Sys2Proof.Machine

/-! ### Little-endian reads of known bytes -/

/-- A 32-bit read takes the four bytes that stand at its offset (R65). -/
theorem le32_of_drop {m p q : List Byte} {o : Nat} (at_o : m.drop o = p ++ q) (hp : p.length = 4) :
    le32 m o = BitVec.ofNat 32 (leNat p) := by
  rw [le32, at_o, List.take_left' hp]

/-- A 64-bit read takes the eight bytes that stand at its offset (R65). -/
theorem le64_of_drop {m p q : List Byte} {o : Nat} (at_o : m.drop o = p ++ q) (hp : p.length = 8) :
    le64 m o = BitVec.ofNat 64 (leNat p) := by
  rw [le64, at_o, List.take_left' hp]

/-- A doubled 32-bit value is the little-endian value of its bytes, twice (R154). -/
theorem doubled_leNat {p : List Byte} (hp : p.length = 4) :
    doubled (BitVec.ofNat 32 (leNat p)) = BitVec.ofNat 64 (leNat (p ++ p)) := by
  rw [doubled_eq_append, le64_of_halves hp hp]

/-- Swapping the halves of eight little-endian bytes swaps the two groups of four (R155). -/
theorem rot32_leNat {p q : List Byte} (hp : p.length = 4) (hq : q.length = 4) :
    rot32 (BitVec.ofNat 64 (leNat (p ++ q))) = BitVec.ofNat 64 (leNat (q ++ p)) := by
  rw [le64_of_halves hp hq, rot32_append, le64_of_halves hq hp]

/-- Three bytes packed with the first one highest are the little-endian value of the three in reverse (R153). -/
theorem packed_eq_leNat (x y z : Byte) :
    (x.setWidth 64 <<< 16) ||| (y.setWidth 64 <<< 8) ||| z.setWidth 64 = BitVec.ofNat 64 (leNat [z, y, x]) := by
  have low : y.toNat <<< 8 ||| z.toNat = y.toNat <<< 8 + z.toNat := (Nat.shiftLeft_add_eq_or_of_lt z.isLt _).symm
  have high : x.toNat <<< 16 ||| (y.toNat <<< 8 + z.toNat) = x.toNat <<< 16 + (y.toNat <<< 8 + z.toNat) :=
    (Nat.shiftLeft_add_eq_or_of_lt (by omega) _).symm
  apply BitVec.eq_of_toNat_eq
  simp (disch := omega) only [BitVec.toNat_or, BitVec.toNat_shiftLeft, BitVec.toNat_setWidth, BitVec.toNat_ofNat,
    Nat.mod_eq_of_lt, Nat.or_assoc, low, high, leNat_cons, leNat_nil]
  omega

/-! ### The short regimes -/

/-- One to three bytes: the first, the middle and the last, first byte highest, and 0 (R153). -/
theorem shortAB_packed {m : List Byte} {x y z : Byte} (nonempty : m.length ≠ 0) (upTo3 : m.length ≤ 3)
    (first : m.getD 0 0 = x) (middle : m.getD (m.length / 2) 0 = y) (last : m.getD (m.length - 1) 0 = z) :
    shortAB m = (BitVec.ofNat 64 (leNat [z, y, x]), 0) := by
  rw [shortAB_upTo3 nonempty upTo3, byteAt, byteAt, byteAt, first, middle, last, packed_eq_leNat]

/-- Four to seven bytes: the first four and the last four, each doubled (R154). -/
theorem shortAB_doubled {p q r : List Byte} (hp : p.length = 4) (hr : r.length = 4) (hq : q.length ≤ 3)
    (last : (p ++ q).drop ((p ++ q).length - 4) = r) :
    shortAB (p ++ q) = (BitVec.ofNat 64 (leNat (p ++ p)), BitVec.ofNat 64 (leNat (r ++ r))) := by
  rw [shortAB_upTo7 (by simp; omega) (by simp; omega), le32_of_drop rfl hp,
    le32_of_drop (last.trans r.append_nil.symm) hr, doubled_leNat hp, doubled_leNat hr]

/-- Eight to sixteen bytes: the first eight with their halves swapped and the last eight (R155). -/
theorem shortAB_swapped {p p' q r : List Byte} (hp : p.length = 4) (hp' : p'.length = 4) (hr : r.length = 8)
    (last : (p ++ p' ++ q).drop ((p ++ p' ++ q).length - 8) = r) :
    shortAB (p ++ p' ++ q) = (BitVec.ofNat 64 (leNat (p' ++ p)), BitVec.ofNat 64 (leNat r)) := by
  rw [shortAB_upTo16 (by simp; omega), le64_of_drop rfl (by simp [hp, hp']),
    le64_of_drop (last.trans r.append_nil.symm) hr, rot32_leNat hp hp']

/-- A message of at most 16 bytes: the epilogue of its short operands under the working seed itself (R157, R163). -/
theorem hashV_of_shortAB (v : Variant) (k : Secret) (w : Word) {m : List Byte} {a b : Word} (short : m.length ≤ 16)
    (operands : shortAB m = (a, b)) :
    hashV v k w m = epilogue v k w a b (BitVec.ofNat 64 m.length) := by
  rw [hashV_short v k w short, operands]

/-- Settles O26: the operands of each regime, under the epilogue. -/
theorem shortRegimes : Obligations.ShortRegimes := by
  intro v k w m
  refine ⟨?empty, ?one, ?two, ?three, ?upTo7, ?upTo16⟩
  case empty =>
    rintro rfl
    exact hashV_of_shortAB v k w (by simp) rfl
  case one =>
    rintro x rfl
    exact hashV_of_shortAB v k w (by simp) (shortAB_packed (by simp) (by simp) rfl (by simp) rfl)
  case two =>
    rintro x y rfl
    exact hashV_of_shortAB v k w (by simp) (shortAB_packed (by simp) (by simp) rfl (by simp) rfl)
  case three =>
    rintro x y z rfl
    exact hashV_of_shortAB v k w (by simp) (shortAB_packed (by simp) (by simp) rfl (by simp) rfl)
  case upTo7 =>
    rintro p q r hp hr ⟨rfl, hq, last⟩
    exact hashV_of_shortAB v k w (by simp; omega) (shortAB_doubled hp hr hq last)
  case upTo16 =>
    rintro p p' q r hp hp' hr ⟨rfl, hq, last⟩
    exact hashV_of_shortAB v k w (by simp; omega) (shortAB_swapped hp hp' hr last)

/-! ### Long messages -/

section
variable (v : Variant) (k : Secret) (w : Word)

/-- The blocks as counts: `(n-1) div 48` of them, merged only if there was one (R161). -/
theorem foldBlocks_eq (m : List Byte) :
    foldBlocks v k w m =
      (if (m.length - 1) / 48 = 0 then w else (lanesAfter v k (Lanes.all w) m ((m.length - 1) / 48)).merge,
        m.drop (48 * ((m.length - 1) / 48))) := by
  rw [foldBlocks]
  split
  next more => rw [blockLoop_eq v k _ _ m le_rfl, if_neg (by omega)]
  next few =>
    have noBlock : (m.length - 1) / 48 = 0 := by omega
    simp [noBlock]

/-- The running seed of a long message as counts: `(i-1) div 16` rounds on the `i` bytes after the blocks (R159,
R161). -/
theorem longSeed_eq (m : List Byte) :
    longSeed v k w m =
      seedAfter v k
        (if (m.length - 1) / 48 = 0 then w else (lanesAfter v k (Lanes.all w) m ((m.length - 1) / 48)).merge)
        m (48 * ((m.length - 1) / 48)) ((tailLength m.length - 1) / 16) := by
  rw [longSeed, foldBlocks_eq, roundLoop_eq v k _ _ _ le_rfl, seedAfter_drop, List.length_drop]
  rfl

end

/-- Settles O27: up to 16 bytes no loop runs; beyond that the two loops are their counts. -/
theorem hashCountsBlocksAndRounds : Obligations.HashCountsBlocksAndRounds := by
  intro v k w m
  rw [hashByCounts]
  split
  next short => exact hashV_short v k w short
  next long =>
    rw [hashV_long v k w (not_le.1 long), longSeed_eq]
    rfl

end Sys2Proof.Machine

/-! SUPPORT. The streaming hasher (spec/43_streaming.md R182 to R192): a WRITE's two paths as slices of the bytes that
wait and the chunk's, FINISH against the one-shot hash, and the message a stream stands for under every step. -/

namespace Sys2Proof.Machine

/-! ### The two paths of a WRITE -/

section
variable (v : Variant) (k : Secret)

theorem streamWrite_of_fits {st : StreamCtx} {c : List Byte} (fits : st.off.toNat + c.length ≤ 48) :
    streamWrite v k st c = writeFits st c := if_pos fits

theorem streamWrite_of_overflow {st : StreamCtx} {c : List Byte} (past : 48 < st.off.toNat + c.length) :
    streamWrite v k st c = writeOverflow v k st c := if_neg (not_le.2 past)

theorem writeFits_off {st : StreamCtx} {c : List Byte} (fits : st.off.toNat + c.length ≤ 48) :
    (writeFits st c).off.toNat = st.off.toNat + c.length := by
  rw [writeFits, BitVec.toNat_ofNat]
  omega

/-- A byte of the buffer after a copy: a copied one between `off` and `off + |c|`, else its own. -/
theorem getElem_bufCopy (b : Vector Byte 48) {off : Nat} (c : List Byte) (fits : off + c.length ≤ 48) {i : Nat}
    (h : i < 48) :
    (bufCopy b off c)[i] = if off ≤ i ∧ i < off + c.length then c.getD (i - off) 0 else b[i] := by
  rw [← Vector.getElem_toList (by simpa using h), ← Vector.getElem_toList (xs := b) (by simpa using h)]
  simp only [bufCopy_toList, List.take_of_length_le (l := c) (show c.length ≤ 48 - off by omega)]
  have front : (b.toList.take off).length = off := by simp; omega
  split
  next copied =>
    rw [List.getElem_append_right (by omega), List.getElem_append_left (by omega), List.getD_eq_getElem _ _ (by omega)]
    simp only [front]
  next own =>
    by_cases below : i < off
    · rw [List.getElem_append_left (by omega), List.getElem_take]
    · rw [List.getElem_append_right (by omega), List.getElem_append_right (by omega), List.getElem_drop]
      congr 1
      omega

/-- Settles O31: the fits path is one copy to the offset. -/
theorem fittingChunkIsAppended : Obligations.FittingChunkIsAppended := by
  intro v k st c fits
  rw [streamWrite_of_fits v k fits]
  refine ⟨rfl, writeFits_off fits, rfl, fun i h low high => ?_, fun i h outside => ?_⟩
  · exact (getElem_bufCopy st.buf c fits h).trans (if_pos ⟨low, high⟩)
  · exact (getElem_bufCopy st.buf c fits h).trans (if_neg (by omega))

/-- Settles O32: the fits path copies nothing and adds nothing. -/
theorem emptyChunkChangesNothing : Obligations.EmptyChunkChangesNothing := by
  intro v k st bound
  rw [streamWrite_of_fits v k (by simpa using bound)]
  simp [writeFits, bufCopy_nil]

/-- Step 2 of the overflow path when the buffer has been topped off to the first 48 bytes of `m`: `q = (|m|-1) div 48`
blocks are folded in all, and the last one's last 16 bytes stand in BUF[32..48), copied there or as topped off. -/
theorem directLoop_toppedOff (l : Lanes) {full : Vector Byte 48} {m : List Byte} {q fuel : Nat}
    (first : full.toList = m.take 48) (hq : (m.length - 1) / 48 = q) (past : 48 < m.length)
    (enough : (m.drop 48).length ≤ fuel) :
    ∃ b : Vector Byte 48, b.toList.drop 32 = (m.drop (48 * q - 16)).take 16 ∧
      directLoop v k fuel (block48 v k l full.toList) full (m.drop 48) =
        (lanesAfter v k l m q, b, m.drop (48 * q)) := by
  obtain ⟨j, rfl⟩ : ∃ j, q = 1 + j := ⟨q - 1, by omega⟩
  have hj : ((m.drop 48).length - 1) / 48 = j := by rw [List.length_drop]; omega
  rw [directLoop_eq v k _ _ _ _ enough, hj, first, ← lanesAfter_one, lanesAfter_add, Nat.mul_add, ← List.drop_drop]
  refine ⟨_, ?_, rfl⟩
  split
  next notCopied => rw [first, notCopied, List.drop_take]
  next copied =>
    rw [bufCopy_full full _ (by simp; omega), List.drop_left' (by simp), List.drop_drop]
    congr 2
    omega

/-- The overflow path on `m`, the bytes that wait and then the chunk: `q = (|m|-1) div 48` blocks are folded, the last
one's last 16 bytes stand in BUF[32..48), and the rest of `m` is copied over the buffer's front (R184, R186). -/
theorem writeOverflow_eq {st : StreamCtx} {c m : List Byte} {q : Nat} (bound : st.off.toNat ≤ 48)
    (past : 48 < st.off.toNat + c.length) (hm : st.buf.toList.take st.off.toNat ++ c = m)
    (hq : (m.length - 1) / 48 = q) :
    ∃ b : Vector Byte 48, b.toList.drop 32 = (m.drop (48 * q - 16)).take 16 ∧
      writeOverflow v k st c =
        { lanes := lanesAfter v k st.lanes m q, buf := bufCopy b 0 (m.drop (48 * q)),
          off := BitVec.ofNat 6 (m.drop (48 * q)).length, tlen := st.tlen + BitVec.ofNat 64 c.length } := by
  have waiting : (st.buf.toList.take st.off.toNat).length = st.off.toNat := by simp; omega
  have length : m.length = st.off.toNat + c.length := by rw [← hm, List.length_append, waiting]
  have first : (bufCopy st.buf st.off.toNat (c.take (48 - st.off.toNat))).toList = m.take 48 := by
    rw [bufCopy_full _ _ (by simp; omega), ← hm, List.take_append, waiting,
      List.take_of_length_le (l := st.buf.toList.take st.off.toNat) (by omega)]
  have rest : c.drop (48 - st.off.toNat) = m.drop 48 := by
    rw [← hm, List.drop_append, waiting, List.drop_of_length_le (l := st.buf.toList.take _) (by omega), List.nil_append]
  obtain ⟨b, before, loop⟩ := directLoop_toppedOff v k st.lanes first hq (by omega) (fuel := c.length)
    (by rw [List.length_drop]; omega)
  exact ⟨b, before, by simp only [writeOverflow, rest, loop]⟩

end

/-- Settles O33: the fields of `writeOverflow_eq`, the rest of the message having 1 to 48 bytes. -/
theorem overflowingChunkIsFolded : Obligations.OverflowingChunkIsFolded := by
  intro v k st c bound past
  have length : (st.buf.toList.take st.off.toNat ++ c).length = st.off.toNat + c.length := by simp; omega
  dsimp only
  rw [streamWrite_of_overflow v k past]
  generalize hm : st.buf.toList.take st.off.toNat ++ c = m at length ⊢
  generalize hq : (st.off.toNat + c.length - 1) / 48 = q
  obtain ⟨b, before, written⟩ := writeOverflow_eq v k bound past hm (length ▸ hq)
  have rest : (m.drop (48 * q)).length = st.off.toNat + c.length - 48 * q := by rw [List.length_drop, length]
  have off : (writeOverflow v k st c).off.toNat = (m.drop (48 * q)).length := by
    rw [written, BitVec.toNat_ofNat]; omega
  rw [off, written]
  refine ⟨rfl, rest, by omega, by omega, rfl, ?_, fun short => ?_⟩
  · simpa using bufCopy_take_end b (off := 0) (m.drop (48 * q)) (by omega)
  · rw [bufCopy_drop b _ (by omega) (by omega), ← List.drop_drop, before, List.drop_take, List.drop_drop]
    congr 2
    omega

/-! ### The message a stream stands for -/

theorem emptyStream_streamOf (v : Variant) (k : Secret) (w : Word) : StreamOf v k w [] (emptyStream w) :=
  ⟨rfl, rfl, rfl, rfl, nofun⟩

section
variable {v : Variant} {k : Secret} {w : Word} {m : List Byte} {st : StreamCtx} (h : StreamOf v k w m st)
include h

theorem StreamOf.bound : st.off.toNat ≤ 48 := h.offset ▸ tailLength_le _

/-- The tail and the folded blocks make up the message. -/
theorem StreamOf.offset_add : st.off.toNat + 48 * ((m.length - 1) / 48) = m.length := h.offset ▸ tailLength_add _

/-- The bytes that wait and then a chunk are the message and the chunk without the folded blocks. -/
theorem StreamOf.waiting (c : List Byte) :
    st.buf.toList.take st.off.toNat ++ c = (m ++ c).drop (48 * ((m.length - 1) / 48)) := by
  rw [h.tail, List.drop_append_of_le_length (by omega)]

theorem StreamOf.total_write {c : List Byte} (total : m.length + c.length < 2 ^ 64) :
    (streamWrite v k st c).tlen.toNat = (m ++ c).length := by
  rw [streamWrite_tlen_toNat v k (by rwa [h.total]), h.total, List.length_append]

theorem StreamOf.offset_write (c : List Byte) : (streamWrite v k st c).off.toNat = tailLength (m ++ c).length := by
  rw [streamWrite_off v k c h.bound, h.offset, tailLength_tailLength_add, List.length_append]

/-- The fits path folds nothing, lengthens the tail, and leaves the bytes before it where they are (R183, R186). -/
theorem StreamOf.write_of_fits {c : List Byte} (fits : st.off.toNat + c.length ≤ 48)
    (total : m.length + c.length < 2 ^ 64) : StreamOf v k w (m ++ c) (streamWrite v k st c) := by
  have length := h.offset_add
  have sameBlocks : ((m ++ c).length - 1) / 48 = (m.length - 1) / 48 := by rw [List.length_append]; omega
  have off := writeFits_off fits
  refine ⟨h.total_write total, h.offset_write c, ?lanes, ?tail, ?reach⟩ <;> rw [streamWrite_of_fits v k fits]
  case lanes =>
    rw [sameBlocks, lanesAfter_append _ _ _ _ _ (by omega), ← h.lanes]
    rfl
  case tail => rw [off, sameBlocks, ← h.waiting c, writeFits, bufCopy_take_end _ _ fits]
  case reach =>
    intro long short
    rw [List.length_append] at long
    rw [off] at short ⊢
    have reach := h.reach (by omega) (by omega)
    rw [writeFits, bufCopy_drop _ _ (by omega) fits, ← Nat.add_assoc, ← List.drop_drop, reach, List.drop_take,
      List.drop_drop, List.length_append, List.drop_append_of_le_length (by omega),
      List.take_append_of_le_length (by rw [List.length_drop]; omega)]
    rw [Nat.sub_sub, Nat.sub_add_comm (show 16 ≤ m.length by omega)]

/-- The overflow path folds whole blocks of the bytes that wait and the chunk, so the blocks of the message so far and
then of the chunk's part are the blocks of the whole (R184, R186). -/
theorem StreamOf.write_of_overflow {c : List Byte} (past : 48 < st.off.toNat + c.length)
    (total : m.length + c.length < 2 ^ 64) : StreamOf v k w (m ++ c) (streamWrite v k st c) := by
  have length := h.offset_add
  have folded := overflowingChunkIsFolded v k st c h.bound past
  dsimp only at folded
  rw [h.waiting c] at folded
  obtain ⟨lanes, off, -, -, -, tail, reach⟩ := folded
  have blocks : ((m ++ c).length - 1) / 48 = (m.length - 1) / 48 + (st.off.toNat + c.length - 1) / 48 := by
    rw [List.length_append]; omega
  refine ⟨h.total_write total, h.offset_write c, ?lanes, ?tail, ?reach⟩
  case lanes => rw [lanes, blocks, lanesAfter_add, lanesAfter_append _ _ _ _ _ (by omega), ← h.lanes]
  case tail => rw [tail, blocks, List.drop_drop, Nat.mul_add]
  case reach =>
    intro _ short
    rw [reach short, List.drop_drop]
    congr 2
    rw [List.length_append, off]
    omega

end

/-- Settles O36, by the two paths of a WRITE. -/
theorem writeExtendsTheMessage : Obligations.WriteExtendsTheMessage := by
  intro v k w m c st h total
  by_cases fits : st.off.toNat + c.length ≤ 48
  · exact h.write_of_fits fits total
  · exact h.write_of_overflow (not_le.1 fits) total

/-! ### FINISH against the one-shot hash -/

section
variable {v : Variant} {k : Secret} {w : Word} {m : List Byte} {st : StreamCtx} (h : StreamOf v k w m st)
include h

/-- FINISH starts its rounds at the working seed, or at the merged lanes when a block has been folded (R161, R188). -/
theorem StreamOf.finishSeed : finishSeed st =
    if (m.length - 1) / 48 = 0 then w else (lanesAfter v k (Lanes.all w) m ((m.length - 1) / 48)).merge := by
  rw [Machine.finishSeed, h.total, h.lanes]
  split
  next folded => rw [if_neg (by omega)]
  next none =>
    have noBlock : (m.length - 1) / 48 = 0 := by omega
    rw [noBlock]
    rfl

/-- A read in the tail of BUF is a read of the message behind the folded blocks. -/
theorem StreamOf.le64 {o : Nat} (inside : o + 8 ≤ st.off.toNat) :
    le64 st.buf.toList o = le64 m (48 * ((m.length - 1) / 48) + o) := by
  rw [← le64_take inside, h.tail, le64_drop]

/-- FINISH's rounds are those of the one-shot hash: none, one or two on a tail of at most 48 bytes (R159, R188). -/
theorem StreamOf.finishRounds : finishRounds v k st = longSeed v k w m := by
  have bound := h.bound
  rw [longSeed_eq, ← h.finishSeed, ← h.offset]
  simp only [Machine.finishRounds]
  by_cases one : 16 < st.off.toNat
  · rw [if_pos one, h.le64 (o := 0) (by omega), h.le64 (o := 8) (by omega)]
    by_cases two : 32 < st.off.toNat
    · rw [if_pos two, h.le64 (o := 16) (by omega), h.le64 (o := 24) (by omega),
        show (st.off.toNat - 1) / 16 = 2 by omega]
      rfl
    · rw [if_neg two, show (st.off.toNat - 1) / 16 = 1 by omega]
      rfl
  · rw [if_neg one, if_neg (by omega), show (st.off.toNat - 1) / 16 = 0 by omega]
    rfl

/-- The window FINISH rebuilds is the end of the message: from the tail, or from the reach-back bytes and the tail
(R162, R186, R188). -/
theorem StreamOf.finishWindow (long : 16 < m.length) : finishWindow st = m.drop (m.length - 16) := by
  have length := h.offset_add
  simp only [Machine.finishWindow]
  split
  next whole =>
    have inTail : (st.buf.toList.drop (st.off.toNat - 16)).take 16 =
        (st.buf.toList.take st.off.toNat).drop (st.off.toNat - 16) := by
      rw [List.drop_take]; congr 1; omega
    rw [inTail, h.tail, List.drop_drop]
    congr 1
    omega
  next short =>
    have tail : m.drop (48 * ((m.length - 1) / 48)) = (m.drop (m.length - 16)).drop (16 - st.off.toNat) := by
      rw [List.drop_drop]; congr 1; omega
    rw [h.reach (by omega) (by omega), h.tail, tail, List.take_append_drop]

/-- R189: FINISH over a stream that stands for `m` computes the hash of `m`. -/
theorem StreamOf.streamFinish : streamFinish v k st = hashV v k w m := by
  have tlen : st.tlen = BitVec.ofNat 64 m.length := by rw [← h.total, BitVec.ofNat_toNat, BitVec.setWidth_eq]
  rw [Machine.streamFinish, h.total, tlen]
  split
  next short =>
    have noBlock : (m.length - 1) / 48 = 0 := by omega
    have all : m.length = st.off.toNat := by rw [h.offset, tailLength_of_le (by omega)]
    have bytes : st.buf.toList.take m.length = m := by rw [all, h.tail, noBlock, Nat.mul_zero, List.drop_zero]
    rw [hashV_short v k w short, bytes, h.finishSeed, if_pos noBlock]
  next long =>
    rw [hashV_long v k w (not_le.1 long), h.finishRounds, h.finishWindow (not_le.1 long), le64_drop, le64_drop]
    congr 2
    omega

/-- R190: after any chunks the stream stands for the message and then the chunks, in order. -/
theorem StreamOf.writes {chunks : List (List Byte)} (total : m.length + chunks.flatten.length < 2 ^ 64) :
    StreamOf v k w (m ++ chunks.flatten) (chunks.foldl (streamWrite v k) st) := by
  induction chunks generalizing m st with
  | nil => simpa using h
  | cons c cs ih =>
    simp only [List.flatten_cons, List.length_append] at total
    rw [List.flatten_cons, ← List.append_assoc]
    exact ih (writeExtendsTheMessage v k w m c st h (by omega)) (by rw [List.length_append]; omega)

end

/-- Settles O38: with SVALID = 1 FINISH completes, and its digest is the hash. -/
theorem finishEqualsTheOneShotHash : Obligations.FinishEqualsTheOneShotHash :=
  fun _ _ opened holds => ⟨_, (Ran.finish opened).exec, (holds opened).streamFinish⟩

/-- Settles O39: the empty stream stands for no bytes, and the chunks are written to it one by one. -/
theorem streamingEqualsOneShot : Obligations.StreamingEqualsOneShot := by
  intro v k w chunks total
  exact ((emptyStream_streamOf v k w).writes (by simpa using total)).streamFinish

/-! ### FINISH -/

/-- The state a command that runs leaves is the one `exec` answers. -/
theorem Ran.eq_of_exec {s t u : State} {i : Instr} (h : Ran s i t) (next : Machine.exec i s = .next u) : u = t :=
  Host.Outcome.next.inj (next.symm.trans h.exec)

/-- Settles O34: SVALID = 1 is FINISH's only check. -/
theorem finishWritesTheDigest : Obligations.FinishWritesTheDigest := by
  intro s opened
  have ran := Ran.finish (s := s) opened
  exact ⟨_, ran.exec, rfl, rfl, rfl, rfl, rfl, rfl, rfl, ran.memoryUnchanged, ran.ranFrom⟩

/-- Settles O35: the first FINISH leaves the stream and the engine context the second one reads. -/
theorem finishIsIdempotent : Obligations.FinishIsIdempotent := by
  intro s t u opened first second
  have once := (Ran.finish opened).eq_of_exec first
  have stillOpen : t.flags.svalid = true := once ▸ opened
  obtain rfl := (Ran.finish stillOpen).eq_of_exec second
  subst once
  exact ⟨rfl, rfl, rfl⟩

/-! ### The message under every step -/

/-- The message of the open stream after the command `c`, if there is one, is executed in `s`: `messageAfter` with the
command given. -/
def messageAfterCommand (c : Option Instr) (s : State) (m : List Byte) : List Byte :=
  match c with
  | some .sopen => if s.flags.initd then [] else m
  | some .write => if s.flags.svalid && chunkInRange s && lengthFits s then m ++ chunk s else m
  | _ => m

theorem messageAfter_eq (s : State) (m : List Byte) : messageAfter s m = messageAfterCommand (commandOf s) s m := rfl

section
variable {s t : State} {m : List Byte} (h : StreamHolds s m)
include h

/-- A stream still open keeps its message where the two contexts stay. -/
theorem StreamHolds.of_same (ctx : t.ctx = s.ctx) (stream : t.stream = s.stream)
    (svalid : t.flags.svalid = s.flags.svalid) : StreamHolds t m := by
  intro opened
  rw [ctx, stream]
  exact h (svalid ▸ opened)

/-- A command that runs leaves the stream standing for the message it should. -/
theorem StreamHolds.ran {i : Instr} (r : Ran s i t) : StreamHolds t (messageAfterCommand (some i) s m) := by
  cases r with
  | mum | mix | hash | finish | gensec => exact h
  | initD | initS | initG => exact nofun
  | sopen engine =>
    simp only [messageAfterCommand, engine, if_true]
    exact fun _ => emptyStream_streamOf ..
  | write opened bounds fits =>
    simp only [messageAfterCommand, opened, bounds, fits, Bool.and_self, if_true]
    have total : m.length + (chunk s).length < 2 ^ 64 := by
      rw [← (h opened).total, length_chunk]
      exact (lengthFits_iff s).1 fits
    exact fun _ => writeExtendsTheMessage _ _ _ _ _ _ (h opened) total

end

/-- A command that enters the fault state has not run. -/
theorem Ran.not_faulted {s t : State} {i : Instr} {code : ErrCode} {w : Word} (ok : s.flags.fault = false)
    (next : Machine.exec i s = .next (s.raiseFault code w)) : ¬ Ran s i t := by
  intro ran
  obtain ⟨fault, -⟩ := ran.fault
  rw [← ran.eq_of_exec next, ok] at fault
  cases fault

/-- A command that has not run leaves the message alone: SOPEN has failed its check, WRITE one of its three. -/
theorem messageAfterCommand_of_not_ran {s : State} {i : Instr} (m : List Byte) (failed : ∀ t, ¬ Ran s i t) :
    messageAfterCommand (some i) s m = m := by
  cases i with
  | mum | mix | initD | initS | initG | hash | finish | gensec => rfl
  | sopen => exact if_neg fun engine => failed _ (.sopen engine)
  | write =>
    refine if_neg fun checks => ?_
    simp only [Bool.and_eq_true] at checks
    obtain ⟨⟨opened, bounds⟩, fits⟩ := checks
    exact failed _ (.write opened bounds fits)

/-- A write to a register that is not CMD starts no command. -/
theorem commandIn_regWrite_other {num : Nat} (other : num ≠ 0) (x : Word) (s : State) :
    commandIn (.regWrite num x) s = none := by
  unfold commandIn
  split
  next zero => cases zero; exact absurd rfl other
  next => rfl

/-- An access that completes leaves the stream standing for the message it should. -/
theorem StreamHolds.served {s t : State} {a : HostAccess} {m : List Byte} (h : StreamHolds s m)
    (served : Served s a t) : StreamHolds t (messageAfterCommand (commandIn a s) s m) := by
  cases served with
  | regRead | memRead | memWrite => exact h
  | regWrite n x other =>
    obtain ⟨o, ho⟩ := regWrite_eq_setOps n x s.endWindow
    rw [ho, commandIn_regWrite_other other]
    exact h
  | refusedCommand w faulted =>
    have none : commandIn (.regWrite 0 w) s = none := by simp [commandIn, faulted]
    exact none ▸ h
  | illegal w e ok bad =>
    have none : commandIn (.regWrite 0 w) s = none := by simp [commandIn, bad]
    exact none ▸ h
  | command w i _ ok good next =>
    have command : commandIn (.regWrite 0 w) s = some i := by simp [commandIn, ok, good]
    rw [command]
    obtain ran | ⟨code, -, rfl⟩ := exec_cases next
    · exact StreamHolds.ran (s := s.endWindow) h ran
    · have same : messageAfterCommand (some i) s m = m :=
        messageAfterCommand_of_not_ran (s := s.endWindow) m fun _ => Ran.not_faulted ok next
      rw [same]
      exact h

/-- Taking the access off the port does not change what a command does to the message. -/
theorem Completes.messageAfterCommand_eq {s s' : State} {a : HostAccess} (h : Completes s a s') (c : Option Instr)
    (m : List Byte) : messageAfterCommand c s' m = messageAfterCommand c s m := by
  cases h <;> rfl

/-- Where no command is executed and the stream stays, it stands for what it stood for. -/
theorem StreamHolds.noCommand {s t : State} {m : List Byte} (h : StreamHolds s m) (none : commandOf s = none)
    (ctx : t.ctx = s.ctx) (stream : t.stream = s.stream) (svalid : t.flags.svalid = s.flags.svalid) :
    StreamHolds t (messageAfterCommand (commandOf s) s m) := by
  rw [none]
  exact h.of_same ctx stream svalid

/-- The generator never touches SVALID. -/
theorem genStep_svalid (s : State) : (genStep s).flags.svalid = s.flags.svalid := by
  unfold genStep
  cases s.seq.gph <;> rfl

/-- Settles O37: a step resets the engine and closes the stream, lets an access complete, or executes no command. -/
theorem everyStepKeepsTheStreamMessage : Obligations.EveryStepKeepsTheStreamMessage := by
  intro s t m h stepped
  rw [messageAfter_eq]
  cases step_cases stepped with
  | reset => exact nofun
  | statusDuring rest next => exact h.noCommand (by simp [commandOf, next]) rfl rfl rfl
  | status rest next =>
    obtain ⟨ctx, stream, flags, -⟩ := readStatus_frame (s.setEvents rest)
    exact h.noCommand (by simp [commandOf, next, HostAccess.isStatusRead]) ctx stream (by rw [flags]; rfl)
  | hold a rest next _ wait =>
    have none : commandOf s = none := by
      obtain busy | held := wait
      · simp [commandOf, next, busy]
      · simp [commandOf, next, held]
    exact h.noCommand none rfl rfl rfl
  | generator next busy =>
    obtain ⟨ctx, stream, -⟩ := genStep_frame s
    exact h.noCommand (by simp [commandOf, commandHeld, next, busy]) ctx stream (genStep_svalid s)
  | generatorQuiet rest next busy =>
    obtain ⟨ctx, stream, -⟩ := genStep_frame (s.setEvents rest)
    exact h.noCommand (by simp [commandOf, commandHeld, next, busy]) ctx stream (genStep_svalid _)
  | idle next _ nothing => exact h.noCommand (by simp [commandOf, commandHeld, next, nothing]) rfl rfl rfl
  | idleQuiet rest next _ nothing => exact h.noCommand (by simp [commandOf, commandHeld, next, nothing]) rfl rfl rfl
  | access a s' _ idle which served =>
    obtain ⟨ctx, stream, flags, -⟩ := which.frame
    have holds := (h.of_same ctx stream (by rw [flags])).served served
    rwa [which.commandIn_eq, ← which.commandOf_eq idle, which.messageAfterCommand_eq] at holds

end Sys2Proof.Machine

/-! SUPPORT. The secret generator from its start to its end (spec/44_secretgen.md R210 to R219): what the rejection loop
of R217 answers, that the state machine of R216 computes it, and a table on which it never ends. -/

namespace Sys2Proof.Machine

/-- Settles O41: GENSEC has no check, and its state is `startGensec`'s. -/
theorem gensecStartsTheGenerator : Obligations.GensecStartsTheGenerator := by
  intro v s
  have ran := Ran.gensec (s := s) v
  exact ⟨_, ran.exec, rfl, rfl, rfl, rfl, rfl, rfl, rfl, rfl, rfl, rfl, rfl, rfl, rfl, ran.memoryUnchanged,
    ran.ranFrom⟩

/-! ### What the rejection loop answers -/

/-- With no word still to be found the loop answers the words it has (R217). -/
@[simp] theorem genLoop_zero (p : Params) (v : Variant) (fuel : Nat) (g : Word) (acc : List Word) :
    genLoop p v fuel 0 g acc = some acc := by
  cases fuel <;> rfl

/-- The loop accepts only words that keep the list valid, and answers when it has found all it needs (R215, R217). -/
theorem genLoop_valid (p : Params) (v : Variant) {fuel need : Nat} {g : Word} {acc ws : List Word}
    (valid : ValidWords acc) (found : genLoop p v fuel need g acc = some ws) :
    ValidWords ws ∧ ws.length = acc.length + need := by
  induction fuel generalizing need g acc with
  | zero =>
    cases need with
    | zero => cases found; exact ⟨valid, rfl⟩
    | succ need => cases found
  | succ fuel ih =>
    cases need with
    | zero => cases found; exact ⟨valid, rfl⟩
    | succ need =>
      simp only [genLoop] at found
      split at found
      next ok =>
        obtain ⟨validWs, length⟩ := ih (valid.append ok) found
        exact ⟨validWs, by rw [length, List.length_append, List.length_singleton]; omega⟩
      next => exact ih valid found

/-- Settles O44: the loop starts from the empty list, which is valid. -/
theorem generatedSecretIsValid : Obligations.GeneratedSecretIsValid := by
  intro p v fuel seed ws found
  have none : ValidWords [] := ⟨nofun, .nil⟩
  obtain ⟨⟨odd, distance⟩, length⟩ := genLoop_valid p v none found
  exact ⟨length, odd, distance.imp of_decide_eq_true⟩

/-! ### What a state of the generator still computes -/

/-- What the loop answers from a drawn word `w.1`, the counter `w.2` and the accepted words `acc`, where the candidates
allowed include the drawn one (R217). -/
def genJudge (p : Params) (v : Variant) (acc : List Word) (w : Word × Word) : Nat → Option (List Word)
  | 0 => none
  | fuel + 1 =>
    if acceptable w.1 acc then genLoop p v fuel (3 - acc.length) w.2 (acc ++ [w.1])
    else genLoop p v fuel (4 - acc.length) w.2 acc

/-- A turn of the loop draws a word and judges it. -/
theorem genLoop_eq_genJudge (p : Params) (v : Variant) (fuel : Nat) (g : Word) {acc : List Word}
    (more : acc.length < 4) :
    genLoop p v fuel (4 - acc.length) g acc = genJudge p v acc (drawWord p v g) fuel := by
  have need : 4 - acc.length = (3 - acc.length) + 1 := by omega
  cases fuel with
  | zero => rw [need]; rfl
  | succ fuel => simp only [genJudge, need, genLoop]

/-- What the generator, between two of its steps, still has to answer: the function of R217 taken up at the phase the
state machine has reached, with `fuel` candidates allowed, the one in CAND among them. -/
def genOutcome (p : Params) (k : Secret) (q : Sequencer) (fuel : Nat) : Option (List Word) :=
  match q.gph with
  | .idle | .done => some k.words
  | .draw =>
    genJudge p q.gvar (k.words.take q.gi.toNat) (drawBytes p q.gvar (8 - q.gj.toNat) q.gj.toNat q.g q.cand) fuel
  | .odd | .ham | .accept => genJudge p q.gvar (k.words.take q.gi.toNat) (q.cand, q.g) fuel

section
variable {p : Params} {k : Secret} {q : Sequencer}

theorem genOutcome_draw (phase : q.gph = .draw) (fuel : Nat) : genOutcome p k q fuel =
    genJudge p q.gvar (k.words.take q.gi.toNat)
      (drawBytes p q.gvar (8 - q.gj.toNat) q.gj.toNat q.g q.cand) fuel := by
  simp only [genOutcome, phase]

/-- From G_ODD to G_ACCEPT the word is drawn and its judgement is outstanding. -/
theorem genOutcome_drawn (phase : q.gph = .odd ∨ q.gph = .ham ∨ q.gph = .accept) (fuel : Nat) :
    genOutcome p k q fuel = genJudge p q.gvar (k.words.take q.gi.toNat) (q.cand, q.g) fuel := by
  obtain phase | phase | phase := phase <;> simp only [genOutcome, phase]

theorem genOutcome_ended (phase : q.gph = .idle ∨ q.gph = .done) (fuel : Nat) :
    genOutcome p k q fuel = some k.words := by
  obtain phase | phase := phase <;> simp only [genOutcome, phase]

theorem Secret.length_take_words (k : Secret) {i : Nat} (h : i < 4) : (k.words.take i).length = i := by
  simp [Secret.words, Nat.le_of_lt h]

/-- At the first byte of a candidate the loop is at the start of a turn. -/
theorem genOutcome_fresh (phase : q.gph = .draw) (cand : q.cand = 0) (gj : q.gj = 0) (gi : q.gi.toNat < 4)
    (fuel : Nat) : genOutcome p k q fuel =
      genLoop p q.gvar fuel (4 - q.gi.toNat) q.g (k.words.take q.gi.toNat) := by
  have length := k.length_take_words gi
  have turn := genLoop_eq_genJudge p q.gvar fuel q.g (acc := k.words.take q.gi.toNat) (by rwa [length])
  rw [genOutcome_draw phase, cand, gj]
  rw [length] at turn
  exact turn.symm

/-- Where in a candidate the generator is: the number falls with every step that does not end the candidate. -/
def Sequencer.stepsLeft (q : Sequencer) : Nat :=
  match q.gph with
  | .idle => 0
  | .done => 1
  | .accept => 2
  | .ham => 7 - q.gk.toNat
  | .odd => 8
  | .draw => 17 - q.gj.toNat

/-- The generator went on with its candidate: the answer is the same, and the candidate is nearer its end. -/
def SameCandidate (p : Params) (k : Secret) (q : Sequencer) (k' : Secret) (q' : Sequencer) : Prop :=
  (∀ fuel, genOutcome p k' q' fuel = genOutcome p k q fuel) ∧ q'.stepsLeft < q.stepsLeft

/-- The generator finished its candidate: the answer is the same with one candidate less. -/
def FinishedCandidate (p : Params) (k : Secret) (q : Sequencer) (k' : Secret) (q' : Sequencer) : Prop :=
  (∀ fuel, genOutcome p k' q' fuel = genOutcome p k q (fuel + 1)) ∧ genOutcome p k q 0 = none

/-- A rejected candidate is a turn of the loop (R217). -/
theorem finishedCandidate_reject (phase : q.gph = .odd ∨ q.gph = .ham) (gi : q.gi.toNat < 4)
    (bad : acceptable q.cand (k.words.take q.gi.toNat) = false) : FinishedCandidate p k q k q.nextCandidate := by
  have drawn := genOutcome_drawn (p := p) (k := k) (phase.imp_right .inl)
  refine ⟨fun fuel => ?_, drawn 0⟩
  rw [drawn, genOutcome_fresh (q := q.nextCandidate) rfl rfl rfl gi]
  simp [genJudge, bad, k.length_take_words gi, Sequencer.nextCandidate]

/-- G_DRAW draws the next byte of the loop's word (R214, R216). -/
theorem sameCandidate_draw (phase : q.gph = .draw) (gj : q.gj.toNat < 8) :
    SameCandidate p k q k (genDraw p q) := by
  have byte : drawBytes p q.gvar (8 - q.gj.toNat) q.gj.toNat q.g q.cand =
      drawBytes p q.gvar (8 - (q.gj.toNat + 1)) (q.gj.toNat + 1) (genDraw p q).g (genDraw p q).cand := by
    have left : 8 - q.gj.toNat = 8 - (q.gj.toNat + 1) + 1 := by omega
    rw [left]
    rfl
  have next : (genDraw p q).gj.toNat = q.gj.toNat + 1 := by simp only [genDraw]; bv_omega
  by_cases last : q.gj + 1 = 8
  · have odd : (genDraw p q).gph = .odd := if_pos last
    have seven : q.gj.toNat = 7 := by bv_omega
    refine ⟨fun fuel => ?_, ?_⟩
    · rw [genOutcome_draw phase, byte, seven, genOutcome_drawn (.inl odd)]
      rfl
    · simp [Sequencer.stepsLeft, phase, odd, seven]
  · have draw : (genDraw p q).gph = .draw := if_neg last
    refine ⟨fun fuel => ?_, ?_⟩
    · rw [genOutcome_draw phase, byte, genOutcome_draw draw, next]
      rfl
    · simp only [Sequencer.stepsLeft, phase, draw, next]
      omega

/-- G_ODD judges the candidate's lowest bit (R215, R216). -/
theorem candidate_odd (phase : q.gph = .odd) (gi : q.gi.toNat < 4) :
    SameCandidate p k q k (genOdd q) ∨ FinishedCandidate p k q k (genOdd q) := by
  cases pass : oddOk q.cand with
  | false =>
    rw [genOdd_reject pass]
    exact .inr (finishedCandidate_reject (.inl phase) gi (by simp [acceptable, pass]))
  | true =>
    rw [genOdd_pass pass]
    refine .inl ⟨fun fuel => ?_, by simp [Sequencer.stepsLeft, phase]⟩
    exact (genOutcome_drawn (.inr (.inl rfl)) fuel).trans (genOutcome_drawn (.inl phase) fuel).symm

/-- G_HAM judges the candidate's distance to one accepted word (R215, R216). -/
theorem candidate_ham (phase : q.gph = .ham) (gi : q.gi.toNat < 4) (gk : q.gk.toNat ≤ q.gi.toNat) :
    SameCandidate p k q k (genHam k q) ∨ FinishedCandidate p k q k (genHam k q) := by
  by_cases all : q.gk.toNat = q.gi.toNat
  · rw [genHam_end k all]
    refine .inl ⟨fun fuel => ?_, by simp only [Sequencer.stepsLeft, phase]; omega⟩
    exact (genOutcome_drawn (.inr (.inr rfl)) fuel).trans (genOutcome_drawn (.inr (.inl phase)) fuel).symm
  · cases pass : halfDistance q.cand (k.get q.gk.toNat) with
    | false =>
      have member : k.get q.gk.toNat ∈ k.words.take q.gi.toNat := by
        have upTo : k.words.take (q.gk.toNat + 1) ⊆ k.words.take q.gi.toNat :=
          List.take_subset_take_left _ (by omega)
        exact upTo (by simp [k.take_words_succ (i := q.gk.toNat) (by omega)])
      have bad : acceptable q.cand (k.words.take q.gi.toNat) = false := by
        simp only [acceptable, Bool.and_eq_false_iff, List.all_eq_false]
        exact .inr ⟨_, member, by simp [pass]⟩
      rw [genHam_reject all pass]
      exact .inr (finishedCandidate_reject (.inr phase) gi bad)
    | true =>
      rw [genHam_pass all pass]
      have succ : (q.gk + 1).toNat = q.gk.toNat + 1 := by bv_omega
      refine .inl ⟨fun fuel => ?_, by simp only [Sequencer.stepsLeft, phase, succ]; omega⟩
      exact (genOutcome_drawn (.inr (.inl phase)) fuel).trans (genOutcome_drawn (.inr (.inl phase)) fuel).symm

/-- G_ACCEPT stores the candidate, which every test has passed: a turn of the loop that finds a word (R216, R217). -/
theorem finishedCandidate_accept (phase : q.gph = .accept) (gi : q.gi.toNat < 4)
    (ok : acceptable q.cand (k.words.take q.gi.toNat) = true) :
    FinishedCandidate p k q (k.set q.gi.toNat q.cand) (genAccept q) := by
  have drawn := genOutcome_drawn (p := p) (k := k) (q := q) (.inr (.inr phase))
  have stored := k.take_words_set gi q.cand
  have found (fuel : Nat) : genOutcome p k q (fuel + 1) =
      genLoop p q.gvar fuel (3 - q.gi.toNat) q.g ((k.set q.gi.toNat q.cand).words.take (q.gi.toNat + 1)) := by
    rw [drawn, stored]
    simp [genJudge, ok, k.length_take_words gi]
  have succ : (genAccept q).gi.toNat = q.gi.toNat + 1 := by simp only [genAccept]; bv_omega
  refine ⟨fun fuel => ?_, drawn 0⟩
  rw [found]
  by_cases last : q.gi + 1 = 4
  · have three : q.gi.toNat = 3 := by bv_omega
    rw [genOutcome_ended (.inr (if_pos last)), three, genLoop_zero]
    rfl
  · have less : q.gi.toNat < 3 := by bv_omega
    rw [genOutcome_fresh (if_neg last) rfl rfl (by omega), succ]
    congr 1
    omega

end

/-! ### The machine on the function -/

/-- An idle engine with nothing to do stays as it is, for every number of steps (R20). -/
theorem run_idle {s : State} (events : s.port.events = []) (busy : s.flags.busy = false) (held : s.port.held = [])
    (n : Nat) : core.run n s = .next s := by
  induction n with
  | zero => rfl
  | succ n ih => rw [run_succ (step_idle events busy held), ih]

/-- The state `u` with the generator's own registers, GSEC and the sequencer, replaced. -/
def State.withGenerator (u : State) (k : Secret) (q : Sequencer) : State :=
  { u with res := { u.res with gsec := k }, seq := q }

/-- A step of a running generator that is not done: it moves the generator's registers alone, keeps what each phase may
rely on, and is a part of a turn of the loop. -/
theorem genStep_withGenerator (u : State) {k : Secret} {q : Sequencer} (g : GenPart true false k q)
    (notDone : q.gph ≠ .done) : ∃ k' q', genStep (u.withGenerator k q) = u.withGenerator k' q' ∧
      GenPart true false k' q' ∧ (SameCandidate u.params k q k' q' ∨ FinishedCandidate u.params k q k' q') := by
  have facts := g.facts
  cases phase : q.gph with
  | idle => exact absurd phase (g.phase.1 rfl)
  | done => exact absurd phase notDone
  | draw =>
    simp only [PhaseFacts, phase] at facts
    exact ⟨k, _, genStep_draw phase, g.draw u.params facts, .inl (sameCandidate_draw phase facts.2)⟩
  | odd =>
    simp only [PhaseFacts, phase] at facts
    exact ⟨k, _, genStep_odd phase, g.odd facts, candidate_odd phase facts⟩
  | ham =>
    simp only [PhaseFacts, phase] at facts
    obtain ⟨gi, gk, near⟩ := facts
    exact ⟨k, _, genStep_ham phase, g.ham ⟨gi, gk, near⟩ phase, candidate_ham phase gi gk⟩
  | accept =>
    simp only [PhaseFacts, phase] at facts
    obtain ⟨gi, ok⟩ := facts
    exact ⟨_, _, genStep_accept phase, g.accept ⟨gi, ok⟩, .inr (finishedCandidate_accept phase gi ok)⟩

section
variable {u : State} (events : u.port.events = []) (busy : u.flags.busy = true)
include events busy

/-- Where the function has a value with some number of candidates, the machine reaches G_DONE with it and ends: on the
candidates allowed, and within a candidate on the steps it has left. -/
theorem run_ends_of_genOutcome {k : Secret} {q : Sequencer} {fuel : Nat} {ws : List Word}
    (g : GenPart true false k q) (found : genOutcome u.params k q fuel = some ws) :
    ∃ (n : Nat) (k' : Secret) (q' : Sequencer),
      core.run n (u.withGenerator k q) = .next (u.withGenerator k' q').endGensec ∧ k'.words = ws := by
  have step := step_busy (s := u.withGenerator k q) events busy
  by_cases done : q.gph = .done
  · rw [genStep_done done] at step
    rw [genOutcome_ended (.inr done)] at found
    exact ⟨1, k, q, run_succ step 0, Option.some.inj found⟩
  · obtain ⟨k', q', moved, g', ⟨same, nearer⟩ | ⟨fewer, none⟩⟩ := genStep_withGenerator u g done
    · obtain ⟨n, rest⟩ := run_ends_of_genOutcome g' ((same fuel).trans found)
      exact ⟨n + 1, by rwa [run_succ (moved ▸ step)]⟩
    · cases fuel with
      | zero => rw [none] at found; cases found
      | succ fuel =>
        obtain ⟨n, rest⟩ := run_ends_of_genOutcome g' ((fewer fuel).trans found)
        exact ⟨n + 1, by rwa [run_succ (moved ▸ step)]⟩
termination_by (fuel, q.stepsLeft)

/-- A machine that has ended holds a value of the function in GSEC. -/
theorem genOutcome_of_run_ends (held : u.port.held = []) {n : Nat} {t : State} {k : Secret} {q : Sequencer}
    (g : GenPart true false k q) (ran : core.run n (u.withGenerator k q) = .next t) (ended : t.flags.busy = false) :
    ∃ fuel, genOutcome u.params k q fuel = some t.res.gsec.words := by
  have step := step_busy (s := u.withGenerator k q) events busy
  induction n generalizing k q with
  | zero =>
    cases ran
    exact absurd (busy.symm.trans ended) (by decide)
  | succ n ih =>
    rw [run_succ step] at ran
    by_cases done : q.gph = .done
    · rw [genStep_done done, run_idle (s := (u.withGenerator k q).endGensec) events rfl held] at ran
      cases ran
      exact ⟨0, genOutcome_ended (.inr done) 0⟩
    · obtain ⟨k', q', moved, g', advance⟩ := genStep_withGenerator u g done
      rw [moved] at ran
      obtain ⟨fuel, found⟩ := ih g' ran (step_busy events busy)
      obtain ⟨same, -⟩ | ⟨fewer, -⟩ := advance
      · exact ⟨fuel, (same fuel).symm.trans found⟩
      · exact ⟨fuel + 1, (fewer fuel).symm.trans found⟩

end

/-- Settles O43: the started generator has the whole function still to answer. -/
theorem gensecComputesTheFunction : Obligations.GensecComputesTheFunction := by
  intro v s u events held next
  cases (Ran.gensec v).eq_of_exec next
  have g := GenPart.start s.res.gsec s.seq s.ops.seedIn v
  have whole (fuel : Nat) := genOutcome_fresh (p := s.params) (k := s.res.gsec) (q := (s.startGensec v).seq) rfl rfl rfl
    (Nat.zero_lt_succ 3) fuel
  refine ⟨fun fuel ws found => ?_, fun n t ran ended => ?_⟩
  · obtain ⟨n, k, q, ran, words⟩ := run_ends_of_genOutcome (u := s.startCommand.startGensec v) events rfl g
      ((whole fuel).trans found)
    exact ⟨n, _, ran, rfl, rfl, words, rfl, rfl, rfl, rfl, rfl, fun _ => rfl⟩
  · obtain ⟨fuel, found⟩ := genOutcome_of_run_ends (u := s.startCommand.startGensec v) events rfl held g ran ended
    exact ⟨fuel, (whole fuel).symm.trans found⟩

/-! ### A table with no odd entry -/

/-- The generator is drawing or testing a candidate that is even so far. -/
def DrawsEven (q : Sequencer) : Prop := (q.gph = .draw ∨ q.gph = .odd) ∧ oddOk q.cand = false

theorem oddOk_zero : oddOk 0 = false := by decide

/-- A byte that is even makes no word odd, wherever it is placed (R214, R219). -/
theorem oddOk_or_placeByte {c : Word} {b : Byte} (even : b.getLsbD 0 = false) (j : Nat) :
    oddOk (c ||| placeByte b j) = oddOk c := by
  cases j with
  | zero =>
    have lowest : (b.setWidth 64).getLsbD 0 = false := by rw [BitVec.getLsbD_setWidth, even]; rfl
    rw [oddOk, placeByte, Nat.mul_zero, BitVec.shiftLeft_zero, BitVec.getLsbD_or, lowest, Bool.or_false, oddOk]
  | succ j => simp [oddOk, placeByte]

/-- On a table with no odd entry the generator goes on drawing even candidates and rejecting them (R219). -/
theorem DrawsEven.genStep {s : State} (table : ∀ b ∈ s.params.genTable.toList, b.getLsbD 0 = false)
    (h : DrawsEven s.seq) : DrawsEven (genStep s).seq := by
  obtain ⟨draw | odd, even⟩ := h
  · rw [genStep_draw draw]
    refine ⟨?_, ?_⟩
    · simp only [State.setSeq_seq, genDraw]
      split
      · exact .inr rfl
      · exact .inl rfl
    · simp only [State.setSeq_seq, genDraw]
      rw [oddOk_or_placeByte (table _ (genByte_mem ..)), even]
  · rw [genStep_odd odd, genOdd_reject even]
    exact ⟨.inl rfl, oddOk_zero⟩

/-- A generator that draws even candidates runs on, for every number of steps. -/
theorem run_busy_of_drawsEven {s : State} (events : s.port.events = []) (busy : s.flags.busy = true)
    (table : ∀ b ∈ s.params.genTable.toList, b.getLsbD 0 = false) (h : DrawsEven s.seq) (n : Nat) :
    ∃ t : State, core.run n s = .next t ∧ t.flags.busy = true := by
  induction n generalizing s with
  | zero => exact ⟨s, rfl, busy⟩
  | succ n ih =>
    obtain ⟨-, -, -, -, params, stillQuiet, -⟩ := genStep_frame s
    obtain ⟨-, -, -, flags⟩ := genStep_keeps s
    have notDone : s.seq.gph ≠ .done := by
      obtain ⟨phase | phase, -⟩ := h <;> simp [phase]
    rw [run_succ (step_busy events busy)]
    exact ih (stillQuiet.trans events) ((flags notDone).1 ▸ busy) (params ▸ table) (h.genStep table)

/-- Settles O45: a GENSEC starts with the even candidate 0. -/
theorem evenTableHangsTheGenerator : Obligations.EvenTableHangsTheGenerator := by
  intro v s u events table next
  cases (Ran.gensec v).eq_of_exec next
  exact run_busy_of_drawsEven events rfl table ⟨.inl rfl, oddOk_zero⟩

end Sys2Proof.Machine

/-! SUPPORT. The fault state (spec/60_exceptions.md R231 to R238): what entering it leaves, which check of which command
enters it, and what an engine that is in it still lets happen. -/

namespace Sys2Proof.Machine

/-! ### Entering the fault state -/

/-- R236: `raiseFault` is the fault entry of the rule. -/
theorem raiseFault_faultedWith (s : State) (code : ErrCode) (w : Word) : FaultedWith code w s (s.raiseFault code w) :=
  ⟨rfl, rfl, rfl, rfl, rfl, rfl, rfl, rfl, rfl, rfl, rfl, rfl, rfl, rfl, rfl, rfl, fun _ => rfl, rfl, rfl, rfl⟩

/-- A check of the command failed, those before it in the order of R238 having passed: for each command its checks and
the code of R231 each raises. -/
inductive Failed (s : State) : Instr → ErrCode → Prop where
  | initG (v : Variant) (invalid : s.flags.gvalid = false) : Failed s (.initG v) .noGsec
  | hashEngine (unwritten : s.flags.initd = false) : Failed s .hash .noEngine
  | hashBounds (engine : s.flags.initd = true) (outside : chunkInRange s = false) : Failed s .hash .bounds
  | sopen (unwritten : s.flags.initd = false) : Failed s .sopen .noEngine
  | writeStream (unwritten : s.flags.svalid = false) : Failed s .write .noStream
  | writeBounds (opened : s.flags.svalid = true) (outside : chunkInRange s = false) : Failed s .write .bounds
  | writeLength (opened : s.flags.svalid = true) (inside : chunkInRange s = true) (tooLong : lengthFits s = false) :
      Failed s .write .lenOverflow
  | finish (unwritten : s.flags.svalid = false) : Failed s .finish .noStream

/-- A command whose check fails enters the fault state with the check's code and its own word. -/
theorem Failed.exec {s : State} {i : Instr} {code : ErrCode} (h : Failed s i code) :
    exec i s = .next (s.raiseFault code (cmdValue i)) := by
  cases h with
  | initG v invalid => simp [Machine.exec, execInitG, faultWith, invalid]
  | hashEngine unwritten => simp [Machine.exec, execHash, faultWith, unwritten]
  | hashBounds engine outside => simp [Machine.exec, execHash, faultWith, engine, outside]
  | sopen unwritten => simp [Machine.exec, execSopen, faultWith, unwritten]
  | writeStream unwritten => simp [Machine.exec, execWrite, faultWith, unwritten]
  | writeBounds opened outside => simp [Machine.exec, execWrite, faultWith, opened, outside]
  | writeLength opened inside tooLong => simp [Machine.exec, execWrite, faultWith, opened, inside, tooLong]
  | finish unwritten => simp [Machine.exec, execFinish, faultWith, unwritten]

/-- R236 for a command whose check fails. -/
theorem Failed.faults {s : State} {i : Instr} {code : ErrCode} (h : Failed s i code) :
    ∃ t, Machine.exec i s = .next t ∧ FaultedWith code (cmdValue i) s t :=
  ⟨_, h.exec, raiseFault_faultedWith ..⟩

/-- Settles O46: the check on INITD, SVALID or GVALID is each command's first. -/
theorem useBeforeWriteFaults : Obligations.UseBeforeWriteFaults := fun _ =>
  ⟨fun unwritten => (Failed.hashEngine unwritten).faults, fun unwritten => (Failed.sopen unwritten).faults,
    fun unwritten => (Failed.writeStream unwritten).faults, fun unwritten => (Failed.finish unwritten).faults,
    fun v invalid => (Failed.initG v invalid).faults⟩

/-- `chunkInRange` fails where the sum passes MSG_BYTES (R234). -/
theorem chunkInRange_eq_false_iff (s : State) :
    chunkInRange s = false ↔ s.params.msgBytes < s.ops.ptr.toNat + s.ops.len.toNat := by
  rw [← Bool.not_eq_true, chunkInRange_iff, Nat.not_le]

/-- `lengthFits` fails where the sum passes 2^64 - 1 (R235). -/
theorem lengthFits_eq_false_iff (s : State) :
    lengthFits s = false ↔ 2 ^ 64 - 1 < s.stream.tlen.toNat + s.ops.len.toNat := by
  rw [← Bool.not_eq_true, lengthFits_iff]
  omega

/-- Settles O47: BOUNDS is checked before the total length, which is checked last. -/
theorem chunkFaults : Obligations.ChunkFaults := by
  intro s
  refine ⟨fun engine outside => ?_, fun opened outside => ?_, fun opened inside tooLong => ?_⟩
  · exact (Failed.hashBounds engine ((chunkInRange_eq_false_iff s).2 outside)).faults
  · exact (Failed.writeBounds opened ((chunkInRange_eq_false_iff s).2 outside)).faults
  · exact (Failed.writeLength opened ((chunkInRange_iff s).2 inside) ((lengthFits_eq_false_iff s).2 tooLong)).faults

/-! ### Values written to CMD that start no command -/

section
variable {s : State} {w : Word}

/-- R232: a value that decodes to no command enters the fault state with itself in ERRINFO. -/
theorem serve_illegal (bad : ∀ i, decode w ≠ .command i) (ok : s.flags.fault = false) :
    serve (.regWrite 0 w) s = .next (s.raiseFault .illegalCmd w) := by
  cases read : decode w with
  | command i => exact absurd read (bad i)
  | illegal e =>
    simp only [serve, offerCommand, State.endWindow_flags, ok, read, if_true]
    rfl

/-- R237: a faulted engine looks at no value written to CMD; the write only completes. -/
theorem serve_refusedCommand (faulted : s.flags.fault = true) : serve (.regWrite 0 w) s = .next s.endWindow := by
  simp [serve, offerCommand, faulted]

/-- A CMD write to an idle engine with nothing held completes at once. -/
theorem step_cmdWrite {rest : List HostEvent} (idle : s.flags.busy = false) (held : s.port.held = [])
    (next : s.port.events = .access (.regWrite 0 w) :: rest) :
    step s = serve (.regWrite 0 w) (s.setEvents rest) := by
  rw [step_of_event next]
  exact arrive_idle (s := s.setEvents rest) (by simp) idle held

end

/-- Settles O7: the write completes at once and its value is illegal. -/
theorem illegalValueFaults : Obligations.IllegalValueFaults := by
  intro s w rest bad idle ok held next
  exact ⟨_, (step_cmdWrite idle held next).trans (serve_illegal bad ok), raiseFault_faultedWith ..⟩

/-- Settles O8: the write completes at once and is refused. -/
theorem faultedEngineRefusesCommands : Obligations.FaultedEngineRefusesCommands := by
  intro s w rest faulted idle held next
  exact (step_cmdWrite idle held next).trans (serve_refusedCommand faulted)

/-! ### In the fault state -/

/-- Between `s` and `t` no flag, result, context or sequencer register changed (R237). -/
def SameEngine (s t : State) : Prop :=
  t.flags = s.flags ∧ t.res = s.res ∧ t.ctx = s.ctx ∧ t.stream = s.stream ∧ t.seq = s.seq

/-- An access that completes in a faulted engine reaches the operand registers, the memory and the port at most: a CMD
write is refused. -/
theorem Served.sameEngine {s t : State} {a : HostAccess} (h : Served s a t) (faulted : s.flags.fault = true) :
    SameEngine s t := by
  cases h with
  | regRead | refusedCommand | memRead | memWrite => exact ⟨rfl, rfl, rfl, rfl, rfl⟩
  | regWrite n x =>
    obtain ⟨o, ho⟩ := regWrite_eq_setOps n x s.endWindow
    exact ho ▸ ⟨rfl, rfl, rfl, rfl, rfl⟩
  | illegal w e ok | command w i _ ok => simp [faulted] at ok

/-- Settles O48: with BUSY = 0 no step but a reset does more than complete an access or move the port. -/
theorem faultIsStickyUntilReset : Obligations.FaultIsStickyUntilReset := by
  intro s t faulted idle notReset stepped
  change SameEngine s t
  cases step_cases stepped with
  | reset rest next => exact absurd ⟨rest, next⟩ notReset
  | statusDuring | hold | idle | idleQuiet => exact ⟨rfl, rfl, rfl, rfl, rfl⟩
  | status rest =>
    obtain ⟨ctx, stream, flags, -, res, seq, -⟩ := readStatus_frame (s.setEvents rest)
    exact ⟨flags, res, ctx, stream, seq⟩
  | generator _ busy | generatorQuiet _ _ busy => simp [idle] at busy
  | access a s' _ _ which served =>
    obtain ⟨ctx, stream, flags, -, res, seq, -⟩ := which.frame
    have same := served.sameEngine (by rw [flags, faulted])
    simpa only [SameEngine, ctx, stream, flags, res, seq] using same

end Sys2Proof.Machine

/-! SUPPORT. Reset as the next event (spec/70_reset_and_hazards.md R260). -/

namespace Sys2Proof.Machine

/-- A reset is taken without looking at the state: no flag, held access or sequencer phase delays it (R260). -/
theorem step_reset {s : State} {rest : List HostEvent} (next : s.port.events = .reset :: rest) :
    step s = .next (s.setEvents rest).resetEngine := step_of_event next

/-- Settles O14: the step is the reset of the engine, whose registers are those of the reset state (O13) and whose memory
and remaining events are the old ones. -/
theorem resetTakesEffectInAnyState : Obligations.ResetTakesEffectInAnyState := by
  intro s rest next
  obtain ⟨flags, -, ops, res, phase⟩ := resetLeavesTheStatedValues
  have memory : MemoryUnchanged s (s.setEvents rest).resetEngine := fun _ => by simp
  exact ⟨_, step_reset next, flags, ops, res, phase, memory, by simp⟩

end Sys2Proof.Machine
